-- ==== Sys2Proof/Word.lean ====
section
/-! DEFINITION. The machine's word: an unsigned 8-bit value (R8), and the index of a register (R17). -/

namespace Sys2Proof

/-- Every register value, memory cell, opcode and operand: an unsigned 8-bit value (R8).
Bits are numbered 7 down to 0 (R7), as `BitVec` numbers them. -/
abbrev Byte := BitVec 8

/-- The index of one of the eight registers R0 to R7 (R17, R32). -/
abbrev RegIx := Fin 8

end Sys2Proof
end

