-- ==== Sys2Proof/Config.lean ====
section
/-! DEFINITION. The parameters of the hardware (R6), the shape of an opcode map (R58), and the free values:
the contents of memory and of the registers after an error, which the spec leaves unspecified (R152). -/

namespace Sys2Proof.Config

/-- `MEM_SIZE`: the number of memory cells (R6, R15). -/
abbrev memSize : Nat := 256

/-- `SP_INDEX`: the register that is the stack pointer (R6, R18). -/
abbrev spIndex : RegIx := 7

/-- `SP_INIT`: the stack pointer at construction, 244 (R6, R30). -/
abbrev spInit : Byte := 0xF4#8

/-- `PC_INIT`: the program counter at construction (R6, R30). -/
abbrev pcInit : Nat := 0

/-- `MAX_OPERANDS`: the most operand bytes an instruction has (R6). -/
abbrev maxOperands : Nat := 2

/-- `OPCODE_MAP`: one byte value for each of the nine instructions (R58). -/
structure OpcodeMap where
  ldi : Byte
  prn : Byte
  mul : Byte
  add : Byte
  push : Byte
  pop : Byte
  call : Byte
  ret : Byte
  hlt : Byte
deriving DecidableEq, Repr

/-- The nine byte values of an opcode map. -/
def OpcodeMap.values (m : OpcodeMap) : List Byte :=
  [m.ldi, m.prn, m.mul, m.add, m.push, m.pop, m.call, m.ret, m.hlt]

/-- FREE VALUE (R152, U1; DESIGN CHOICE in form, assumption log 1): what the memory cell `addr` holds after an
error. It may depend on all that the step's result depends on (R86: memory, registers, pc) and on the number of
the draw; nothing else is known of it. -/
opaque cellAfterError (draw : Nat) (mem : List (Nat × BitVec 8)) (regs : Vector (BitVec 8) 8) (pc : Nat)
    (addr : Nat) : BitVec 8

/-- FREE VALUE (R152, U1; DESIGN CHOICE in form, assumption log 1): what register `i` holds after an error. -/
opaque regAfterError (draw : Nat) (mem : List (Nat × BitVec 8)) (regs : Vector (BitVec 8) 8) (pc : Nat)
    (i : Fin 8) : BitVec 8

end Sys2Proof.Config
end

