-- ==== Sys2Proof/Machine/State.lean ====
section
/-! DEFINITION. The state of the CORE (R30), the names of what ends a step, and the state after `construct()`. -/

namespace Sys2Proof.Machine

/-- The error kinds the CORE raises (R145). `UnsupportedALUOperation` cannot occur (R150) and `LoaderFailure` is
the loader's (R151). -/
inductive ErrorKind where
  | outOfRangeAddress
  | unknownInstruction
deriving DecidableEq, Repr

/-- The run status (R24, C8): `running`, `halted` (by HLT alone), or `error` with the record of R147: its kind, the
pc at failure and the offending value. -/
inductive Status where
  | running
  | halted
  | error (kind : ErrorKind) (pc : Nat) (detail : Int)
deriving DecidableEq, Repr

/-- Memory as a list of (address, value) cells in one canonical form (`Memory.wf`, in Ops.lean). -/
abbrev Memory := List Host.Cell

/-- What an address that no cell lists reads as: 0, the constructed value of every cell (R30 "fully zeroed"). -/
abbrev Memory.unlisted : Byte := 0#8

/-- The state of the CORE: exactly the table of R30 (R26, R29: there is no other), and one field of the model's
own, `draws`. -/
structure State where
  /-- The 256 cells (R15). -/
  mem : Memory
  /-- The eight registers R0 to R7, R7 the stack pointer (R17, R18). -/
  regs : Vector Byte 8
  /-- The program counter, a non-negative integer that an advance may leave above 255 (R21, C6). -/
  pc : Nat
  /-- The run status (R24). -/
  status : Status
  /-- The output trace, the values PRN has emitted, oldest first (R27). -/
  out : List Byte
  /-- THE MODEL'S OWN, not the spec's (assumption log 1): the number of free values drawn so far. Only a `raise`
  reads and advances it. -/
  draws : Nat
deriving DecidableEq, Repr

/-- Why there is no step. Both say that the run has ended; neither is an error of the machine's, which is a next
state whose status is `error` (R147). -/
inductive Fault where
  /-- Raised by `step` when the status is `halted`: no step is enabled (R75, R85). Safe: the machine itself has no
  further step. -/
  | haltedHasNoStep
  /-- Raised by `step` when the status is `error`: no step is enabled (R75, R85). Safe: the machine itself has no
  further step. -/
  | errorHasNoStep
deriving DecidableEq, Repr

/-- Why the model gives no meaning. -/
inductive Refusal where
  /-- An instruction of the opcode table without a meaning in this model, answered by `exec`'s arm alone. Safe. No
  arm answers it: all nine instructions have their meaning. -/
  | notModelled (mnemonic : String)
deriving DecidableEq, Repr

/-- What a `raise E(info)` carries (R13): the error kind and the record's `detail` (R146, R148). -/
structure Raise where
  kind : ErrorKind
  detail : Int
deriving DecidableEq, Repr

/-- How a handler ends when it raises nothing (R80): it asks for the default advance, it has written `pc` itself,
or it halts. -/
inductive Ending where
  | advance (s : State)
  | explicit (s : State)
  | halt (s : State)
deriving DecidableEq, Repr

/-- The operations of the ALU: a closed set (R33, R102). -/
inductive AluOp where
  | add
  | multiply
deriving DecidableEq, Repr

/-- The state after `construct()` (R30, R165): memory and R0 to R6 zero, SP 244, pc 0, Running, no output. -/
def State.reset : State where
  mem := []
  regs := #v[0#8, 0#8, 0#8, 0#8, 0#8, 0#8, 0#8, Config.spInit]
  pc := Config.pcInit
  status := .running
  out := []
  draws := 0

end Sys2Proof.Machine
end

