-- ==== Sys2Proof/Machine/Ops.lean ====
section
/-! DEFINITION. The named operations over memory, registers, stack pointer and output (R9 to R13, R116), taking an
error (R147), and the end of a handler (R80, R81). There is no return from an error (R149, R157). -/

namespace Sys2Proof.Machine

/-! ### Memory -/

/-- The value of the cell at `a`. -/
def Memory.read : Memory → Nat → Byte
  | [], _ => Memory.unlisted
  | (b, v) :: rest, a => if b = a then v else Memory.read rest a

/-- Put a cell before the first one with a larger address. -/
def Memory.insert (a : Nat) (v : Byte) : Memory → Memory
  | [] => [(a, v)]
  | c :: rest => if a < c.1 then (a, v) :: c :: rest else c :: Memory.insert a v rest

/-- Take the cell at `a` out. -/
def Memory.erase (m : Memory) (a : Nat) : Memory := m.filter fun c => c.1 ≠ a

/-- Store `v` in the cell at `a`, keeping the canonical form: the cell is listed unless it then holds what an
unlisted address reads as. -/
def Memory.write (m : Memory) (a : Nat) (v : Byte) : Memory :=
  if v = Memory.unlisted then m.erase a else Memory.insert a v (m.erase a)

/-- The memory whose cell `a` holds `f a`, for each of the 256 addresses. -/
def Memory.ofFun (f : Nat → Byte) : Memory :=
  (List.range Config.memSize).filterMap fun a => if f a = Memory.unlisted then none else some (a, f a)

/-- The canonical form: addresses strictly rising, all below 256 (R15), and no cell listed that holds what an
unlisted address reads as. -/
abbrev Memory.wf (m : Memory) : Prop :=
  m.Pairwise (fun c d => c.1 < d.1) ∧ ∀ c ∈ m, c.1 < Config.memSize ∧ c.2 ≠ Memory.unlisted

/-! ### Registers and the other fields -/

/-- `x[i]` (R9). -/
def State.reg (s : State) (i : RegIx) : Byte := s.regs[i]

/-- `SP`, another name for `x[7]` (R9). -/
def State.sp (s : State) : Byte := s.reg Config.spIndex

/-- `x[i] <- v` for an integer `v`: stores `v mod 256` (R10). -/
def State.writeReg (s : State) (i : RegIx) (v : Int) : State :=
  { s with regs := s.regs.set i (BitVec.ofInt 8 v) }

/-- `pc <- t` (R13). -/
def State.setPc (s : State) (t : Nat) : State := { s with pc := t }

/-- `emit(v)`: append `v` to the output trace (R13, R27, R35). -/
def State.emit (s : State) (v : Byte) : State := { s with out := s.out ++ [v] }

/-! ### Checked operations: a value, or the `raise` that ends the instruction -/

/-- What a checked operation answers. -/
abbrev Checked (α : Type) := Except Raise α

/-- `raise OutOfRangeAddress(d)` (R13). -/
def outOfRange {α : Type} (d : Int) : Checked α := .error ⟨.outOfRangeAddress, d⟩

/-- `MemRead(a, 1)` (R11): any address outside 0 to 255, negative ones included, raises. -/
def memRead (a : Int) (s : State) : Checked Byte :=
  if 0 ≤ a ∧ a < Config.memSize then .ok (s.mem.read a.toNat) else outOfRange a

/-- `MemWrite(a, 1, v)` (R11). -/
def memWrite (a : Int) (v : Byte) (s : State) : Checked State :=
  if 0 ≤ a ∧ a < Config.memSize then .ok { s with mem := s.mem.write a.toNat v } else outOfRange a

/-- `SPDec()` (R116): integer arithmetic, checked and never reduced mod 256. -/
def spDec (s : State) : Checked State :=
  let v : Int := s.sp.toNat - 1
  if v < 0 then outOfRange v else .ok (s.writeReg Config.spIndex v)

/-- `SPInc()` (R116). -/
def spInc (s : State) : Checked State :=
  let v : Int := s.sp.toNat + 1
  if v > 255 then outOfRange v else .ok (s.writeReg Config.spIndex v)

/-! ### Taking an error, and the end of a handler -/

/-- TAKING AN ERROR, the one operation every `raise` goes through (R13, R147): the status becomes the error record,
whose `pc` is the pc the step began with (or the out-of-range pc of a failed opcode fetch, which is the same
field). The output trace keeps what was emitted (R153). Memory and the registers become unspecified (R152): free
values. The pc stays (R22; assumption log 3). No handler runs and no mode changes (R149, R157). -/
def raise (r : Raise) (s : State) : State where
  mem := Memory.ofFun (Config.cellAfterError s.draws s.mem s.regs s.pc)
  regs := Vector.ofFn (Config.regAfterError s.draws s.mem s.regs s.pc)
  pc := s.pc
  status := .error r.kind s.pc r.detail
  out := s.out
  draws := s.draws + 1

/-- What the engine does with a handler's end (R80, R81). `s` is the state the step began in; `len` is the
default displacement `n + 1` (R79), added to `pc0` and not reduced mod 256. -/
def conclude (len : Nat) (s : State) (h : Checked Ending) : Host.Outcome State Fault Refusal :=
  match h with
  | .error r => .next (raise r s)
  | .ok (.advance t) => .next (t.setPc (s.pc + len))
  | .ok (.explicit t) => .next t
  | .ok (.halt t) => .next { t with status := .halted }

end Sys2Proof.Machine
end

