-- ==== Sys2Proof/Machine/Flags.lean ====
section
/-! DEFINITION. What the ALU computes and records (R33, R100 to R103). The machine has no flags: nothing records a
carry or an overflow (R25, R102), so a result is all there is. -/

namespace Sys2Proof.Machine

/-- The result of an ALU operation on two unsigned 8-bit values: the exact result reduced mod 256 (R100, R101). -/
def aluResult : AluOp → Byte → Byte → Nat
  | .add, a, b => (a.toNat + b.toNat) % 256
  | .multiply, a, b => (a.toNat * b.toNat) % 256

/-- The ALU port `apply(operation, dest, src)` (R33): both operand registers are read before the destination is
written (R103). -/
def aluApply (op : AluOp) (dest src : RegIx) (s : State) : State :=
  s.writeReg dest (aluResult op (s.reg dest) (s.reg src))

end Sys2Proof.Machine
end

