-- ==== Sys2Proof/Machine/Operands.lean ====
section
/-! DEFINITION. The operand forms. There are two (R61, R62): a register operand, the whole byte checked as an
index, and LDI's immediate, the whole byte as it stands. CALL's implied operand, its return address, is here too. -/

namespace Sys2Proof.Machine

/-- `RegIndex(b)` (R12): a byte above 7 is no register, and raises with the byte as its detail. -/
def regIndex (b : Byte) : Checked RegIx :=
  if h : b.toNat < 8 then .ok ⟨b.toNat, h⟩ else outOfRange b.toNat

/-- LDI's immediate operand: the unsigned value 0 to 255 of the byte, not extended, scaled or shifted (R62). -/
def immediate (b : Byte) : Int := b.toNat

/-- CALL's return address `pc + 2` as the byte to store: an address above 255 does not fit a cell and raises
(R131). -/
def returnAddress (s : State) : Checked Byte :=
  let ra : Int := s.pc + 2
  if ra > 255 then outOfRange ra else .ok (BitVec.ofInt 8 ra)

end Sys2Proof.Machine
end

