-- ==== Sys2Proof/Machine/Arith.lean ====
section
/-! DEFINITION. The ALU instructions: MUL, ADD (42_alu.md). -/

namespace Sys2Proof.Machine

/-- The shape MUL and ADD share (R104, R105): both register operands are checked, A before B, then the ALU is
applied. -/
def aluInstr (op : AluOp) (a b : Byte) (s : State) : Checked Ending := do
  let ra ← regIndex a
  let rb ← regIndex b
  .ok (.advance (aluApply op ra rb s))

/-- MUL reg_a, reg_b (R104). -/
def execMul (a b : Byte) (s : State) : Host.Outcome State Fault Refusal :=
  conclude 3 s (aluInstr .multiply a b s)

/-- ADD reg_a, reg_b (R105). -/
def execAdd (a b : Byte) (s : State) : Host.Outcome State Fault Refusal :=
  conclude 3 s (aluInstr .add a b s)

end Sys2Proof.Machine
end

