-- ==== Sys2Proof/Machine/Control.lean ====
section
/-! DEFINITION. Control transfer: CALL, RET, HLT (44_control.md). -/

namespace Sys2Proof.Machine

/-- CALL reg (R130): SP is decremented, the return address checked and stored, then pc becomes the register, read
after the decrement. -/
def execCall (a : Byte) (s : State) : Host.Outcome State Fault Refusal :=
  conclude 2 s do
    let r ← regIndex a
    let s1 ← spDec s
    let ra ← returnAddress s1
    let s2 ← memWrite s1.sp.toNat ra s1
    .ok (.explicit (s2.setPc (s2.reg r).toNat))

/-- RET (R133). -/
def execRet (s : State) : Host.Outcome State Fault Refusal :=
  conclude 1 s do
    let v ← memRead s.sp.toNat s
    let s1 ← spInc s
    .ok (.explicit (s1.setPc v.toNat))

/-- HLT (R134): the status becomes Halted, and pc stays at the HLT. -/
def execHlt (s : State) : Host.Outcome State Fault Refusal :=
  conclude 1 s (.ok (.halt s))

end Sys2Proof.Machine
end

