-- ==== Sys2Proof/Machine/RegisterIo.lean ====
section
/-! DEFINITION. Register load and output: LDI, PRN (41_register_io.md). -/

namespace Sys2Proof.Machine

/-- LDI reg, value (R91). -/
def execLdi (a b : Byte) (s : State) : Host.Outcome State Fault Refusal :=
  conclude 3 s do
    let r ← regIndex a
    .ok (.advance (s.writeReg r (immediate b)))

/-- PRN reg (R92). -/
def execPrn (a : Byte) (s : State) : Host.Outcome State Fault Refusal :=
  conclude 2 s do
    let r ← regIndex a
    .ok (.advance (s.emit (s.reg r)))

end Sys2Proof.Machine
end

