-- ==== Sys2Proof/Machine/Stack.lean ====
section
/-! DEFINITION. The stack instructions: PUSH, POP (43_stack.md). The statements run in the order the rules write
them, which gives PUSH R7 and POP R7 their effect (D7). -/

namespace Sys2Proof.Machine

/-- PUSH reg (R117): the register is read after the decrement. -/
def execPush (a : Byte) (s : State) : Host.Outcome State Fault Refusal :=
  conclude 2 s do
    let r ← regIndex a
    let s1 ← spDec s
    let s2 ← memWrite s1.sp.toNat (s1.reg r) s1
    .ok (.advance s2)

/-- POP reg (R118): read at the old SP, write the register, then increment SP (which for R7 is the popped
value). -/
def execPop (a : Byte) (s : State) : Host.Outcome State Fault Refusal :=
  conclude 2 s do
    let r ← regIndex a
    let v ← memRead s.sp.toNat s
    let s1 ← spInc (s.writeReg r v.toNat)
    .ok (.advance s1)

end Sys2Proof.Machine
end

