-- ==== Sys2Proof/Syntax.lean ====
section
/-! DEFINITION. The nine instructions (R2), one constructor for each row of spec/opcode_table.json.
An operand is the whole operand byte (R55, R61, R62): a register operand may hold 8 to 255, which is legal as an
encoding (R64) and raises an error when the instruction runs (R12). -/

namespace Sys2Proof

/-- The nine instructions with their operand bytes: the first is operand A (byte 1), the second operand B
(byte 2), as the table of R59 orders them. -/
inductive Instr where
  | ldi (reg value : Byte)   -- R91
  | prn (reg : Byte)         -- R92
  | mul (regA regB : Byte)   -- R104
  | add (regA regB : Byte)   -- R105
  | push (reg : Byte)        -- R117
  | pop (reg : Byte)         -- R118
  | call (reg : Byte)        -- R130
  | ret                      -- R133
  | hlt                      -- R134
deriving DecidableEq, Repr

end Sys2Proof
end

