-- ==== Sys2Proof/WellFormed.lean ====
section
/-! DEFINITION. Which instructions name existing registers (R61), and which opcode maps R58 admits.
The decoder accepts every operand byte (R64); an ill-formed instruction decodes, runs and raises
`OutOfRangeAddress` (R12). -/

namespace Sys2Proof

/-- An operand byte names a register when it is 0 to 7; no bit of it is ignored (R61). -/
def namesRegister (b : Byte) : Bool := b.toNat ≤ 7

/-- Every operand byte that is used as a register index names one of the eight registers (R61). LDI's second
operand is a value, and every value is legal (R62, R64). -/
def Instr.wellFormed : Instr → Bool
  | .ldi reg _ => namesRegister reg
  | .prn reg => namesRegister reg
  | .mul regA regB => namesRegister regA && namesRegister regB
  | .add regA regB => namesRegister regA && namesRegister regB
  | .push reg => namesRegister reg
  | .pop reg => namesRegister reg
  | .call reg => namesRegister reg
  | .ret => true
  | .hlt => true

/-- The constraints of R58 on an opcode map: the nine values are distinct, and bits 7:6 of each value are that
instruction's operand count. -/
structure Config.OpcodeMap.Valid (m : Config.OpcodeMap) : Prop where
  distinct : m.values.Nodup
  ldi : m.ldi.extractLsb 7 6 = 2#2
  prn : m.prn.extractLsb 7 6 = 1#2
  mul : m.mul.extractLsb 7 6 = 2#2
  add : m.add.extractLsb 7 6 = 2#2
  push : m.push.extractLsb 7 6 = 1#2
  pop : m.pop.extractLsb 7 6 = 1#2
  call : m.call.extractLsb 7 6 = 1#2
  ret : m.ret.extractLsb 7 6 = 0#2
  hlt : m.hlt.extractLsb 7 6 = 0#2

end Sys2Proof
end

