-- ==== Sys2Proof/Decode.lean ====
section
/-! DEFINITION. The decoder (30_encoding.md, R77, R78): total on any bytes, refusing by name; and the encoder. -/

namespace Sys2Proof

/-- The opcode map of this hardware (R59, decision D1 of 92_eei_decisions.md; assumption log 2). -/
def opcodeMap : Config.OpcodeMap where
  ldi := 0b10000010#8
  prn := 0b01000111#8
  mul := 0b10100010#8
  add := 0b10100000#8
  push := 0b01000101#8
  pop := 0b01000110#8
  call := 0b01010000#8
  ret := 0b00010001#8
  hlt := 0b00000001#8

/-- `operand_count(opcode)`, the unsigned value of `(opcode >> 6) & 0b11` (R56). It is 3 for `0b11xxxxxx`, which
is no opcode (R63). -/
def operandCount (op : Byte) : Nat := ((op >>> 6) &&& 0b11#8).toNat

/-- Dispatch of an opcode byte (R34, R59): the whole byte is compared with the nine values. The answer is the
instruction as a function of its operand bytes A and B, or none where the byte has no handler (R63). -/
def lookup (m : Config.OpcodeMap) (op : Byte) : Option (Byte → Byte → Instr) :=
  if op = m.ldi then some fun a b => .ldi a b
  else if op = m.prn then some fun a _ => .prn a
  else if op = m.mul then some fun a b => .mul a b
  else if op = m.add then some fun a b => .add a b
  else if op = m.push then some fun a _ => .push a
  else if op = m.pop then some fun a _ => .pop a
  else if op = m.call then some fun a _ => .call a
  else if op = m.ret then some fun _ _ => .ret
  else if op = m.hlt then some fun _ _ => .hlt
  else none

/-- The fetch and decode part of one step, the first five lines of R81, over any source of bytes: `read k` gives
byte `k` of the instruction or says why it cannot, `unknown op` says that `op` is no opcode. The opcode is read
and looked up first, then exactly the operand bytes it declares, A before B (R77, R78, R82). -/
def decodeFrom {ε : Type} (m : Config.OpcodeMap) (read : Nat → Except ε Byte) (unknown : Byte → ε) :
    Except ε Instr := do
  let op ← read 0
  match lookup m op with
  | none => .error (unknown op)
  | some build =>
    let n := operandCount op
    let a ← if 1 ≤ n then read 1 else .ok 0#8
    let b ← if n = 2 then read 2 else .ok 0#8
    .ok (build a b)

/-- Why a list of bytes is no instruction: byte `k` of it is missing, or its first byte is no opcode. -/
inductive DecodeError where
  | missingByte (k : Nat)
  | unknownOpcode (op : Byte)
deriving DecidableEq, Repr

/-- Byte `k` of a list of bytes. -/
def byteOf (bs : List Byte) (k : Nat) : Except DecodeError Byte :=
  match bs[k]? with
  | some b => .ok b
  | none => .error (.missingByte k)

/-- The decoder on a list of bytes, under the opcode map `m`: the instruction at its front and the bytes after
it. The length is `opcode[7:6] + 1`, known from the first byte alone (R57). -/
def decodeWith (m : Config.OpcodeMap) (bs : List Byte) : Except DecodeError (Instr × List Byte) := do
  let i ← decodeFrom m (byteOf bs) .unknownOpcode
  let op ← byteOf bs 0
  .ok (i, bs.drop (operandCount op + 1))

/-- The decoder of this hardware. -/
def decode (bs : List Byte) : Except DecodeError (Instr × List Byte) := decodeWith opcodeMap bs

/-! ### The encoder (R55, R67) -/

/-- The bytes of an instruction under the opcode map `m`, in ascending address order (R42, R55, R67). -/
def encodeWith (m : Config.OpcodeMap) : Instr → List Byte
  | .ldi reg value => [m.ldi, reg, value]
  | .prn reg => [m.prn, reg]
  | .mul regA regB => [m.mul, regA, regB]
  | .add regA regB => [m.add, regA, regB]
  | .push reg => [m.push, reg]
  | .pop reg => [m.pop, reg]
  | .call reg => [m.call, reg]
  | .ret => [m.ret]
  | .hlt => [m.hlt]

/-- The bytes of an instruction (R67). -/
def encode (i : Instr) : List Byte := encodeWith opcodeMap i

/-! ### The opcode table's numbering of bits -/

/-- The bytes of a table word: bit 0 is the least significant bit of the first byte and a later byte's bits count
on; bits from `nbits` up are 0, up to the longest instruction's 3 bytes. -/
def tableBytes (nbits w : Nat) : List Byte :=
  let v := w % 2 ^ nbits
  [BitVec.ofNat 8 v, BitVec.ofNat 8 (v / 2 ^ 8), BitVec.ofNat 8 (v / 2 ^ 16)]

/-- What the decoder reads from a table word. -/
def decodeTableWord (nbits w : Nat) : Option Instr :=
  match decode (tableBytes nbits w) with
  | .ok (i, _) => some i
  | .error _ => none

end Sys2Proof
end

