-- ==== Sys2Proof/Machine/Fetch.lean ====
section
/-! DEFINITION. Fetching the instruction at the program counter (R76 to R78), and placing bytes there. -/

namespace Sys2Proof.Machine

/-- Fetch and decode the instruction whose opcode byte is at `pc`: byte `k` is read at `pc + k` (R42), so an opcode
or operand byte past 255 raises `OutOfRangeAddress` with its address (R76, R78), and a byte that is no opcode
raises `UnknownInstruction` with itself, before any operand is read (R77). -/
def fetchInstr (s : State) : Checked Instr :=
  decodeFrom opcodeMap (fun k => memRead (s.pc + k) s) (fun op => ⟨.unknownInstruction, op.toNat⟩)

/-- Put bytes into memory from an address up, leaving out those that would lie past the last cell. -/
def placeBytes : List Byte → Nat → Memory → Memory
  | [], _, m => m
  | b :: bs, a, m => if a < Config.memSize then placeBytes bs (a + 1) (m.write a b) else m

end Sys2Proof.Machine
end

