-- ==== Sys2Proof/Machine/Step.lean ====
section
/-! DEFINITION. One step of the engine (R75, R81). -/

namespace Sys2Proof.Machine

/-- One step (R81). Only a Running engine has one (R75, R85). -/
def step (s : State) : Host.Outcome State Fault Refusal :=
  match s.status with
  | .running =>
    match fetchInstr s with
    | .ok i => exec i s
    | .error r => .next (raise r s)
  | .halted => .fault .haltedHasNoStep
  | .error _ _ _ => .fault .errorHasNoStep

/-- `s` with a table word's three bytes (the bits from `nbits` up zero) in memory from `pc` up, Running, so that the
next step fetches and runs it (assumption log 4). The instruction must fit below address 256. -/
def State.withFetchWord (s : State) (nbits w : Nat) : State :=
  { s with mem := placeBytes (tableBytes nbits w) s.pc s.mem, status := .running }

end Sys2Proof.Machine
end

