-- ==== Sys2Proof/Machine/Assembler.lean ====
section
/-! DEFINITION. The assembler text of 30_encoding.md (R65 to R67), as lists of characters: the text of an
instruction, and the bytes of a program text. Notation only; the machine never sees it (D15). What R65 leaves open
of spacing and letter case is fixed in assumption log 6. -/

namespace Sys2Proof.Machine.Asm

/-! ### Writing -/

/-- The decimal digits of a byte, without leading zeros. -/
def decimal (b : Byte) : List Char :=
  let n := b.toNat
  let digit (k : Nat) : Char := Char.ofNat (48 + k)
  if n < 10 then [digit n]
  else if n < 100 then [digit (n / 10), digit (n % 10)]
  else [digit (n / 100), digit (n / 10 % 10), digit (n % 10)]

/-- A register operand, written R0 to R7; a byte above 7 has no written form (R65). -/
def registerText (b : Byte) : Option (List Char) :=
  if namesRegister b then some ('R' :: decimal b) else none

/-- A mnemonic with one register operand. -/
def oneRegister (mnemonic : List Char) (a : Byte) : Option (List Char) :=
  (registerText a).map fun t => mnemonic ++ ' ' :: t

/-- A mnemonic with two register operands, operand A first (R65). -/
def twoRegisters (mnemonic : List Char) (a b : Byte) : Option (List Char) :=
  (registerText a).bind fun t => (registerText b).map fun u => mnemonic ++ ' ' :: t ++ ',' :: u

/-- The text of an instruction (R65, R67). -/
def text : Instr → Option (List Char)
  | .ldi reg value => (registerText reg).map fun t => ['L', 'D', 'I', ' '] ++ t ++ ',' :: decimal value
  | .prn reg => oneRegister ['P', 'R', 'N'] reg
  | .mul regA regB => twoRegisters ['M', 'U', 'L'] regA regB
  | .add regA regB => twoRegisters ['A', 'D', 'D'] regA regB
  | .push reg => oneRegister ['P', 'U', 'S', 'H'] reg
  | .pop reg => oneRegister ['P', 'O', 'P'] reg
  | .call reg => oneRegister ['C', 'A', 'L', 'L'] reg
  | .ret => some ['R', 'E', 'T']
  | .hlt => some ['H', 'L', 'T']

/-! ### Reading -/

/-- The pieces of a text between the characters that `sep` holds of. -/
def split (sep : Char → Bool) : List Char → List (List Char)
  | [] => [[]]
  | c :: cs =>
    if sep c then [] :: split sep cs
    else match split sep cs with
      | [] => [[c]]
      | p :: ps => (c :: p) :: ps

/-- A text without the spaces at its two ends. -/
def trim (cs : List Char) : List Char :=
  ((cs.dropWhile (· = ' ')).reverse.dropWhile (· = ' ')).reverse

/-- The value of a digit in a base up to 16. -/
def digitValue (base : Nat) (c : Char) : Option Nat :=
  let n := c.toNat
  let v := if 48 ≤ n ∧ n ≤ 57 then n - 48
    else if 97 ≤ n ∧ n ≤ 102 then n - 87
    else if 65 ≤ n ∧ n ≤ 70 then n - 55
    else base
  if v < base then some v else none

/-- The value of a text of digits, the most significant first. -/
def digits (base : Nat) : List Char → Nat → Option Nat
  | [], acc => some acc
  | c :: cs, acc => (digitValue base c).bind fun v => digits base cs (acc * base + v)

/-- An immediate: decimal, hexadecimal with `0x` or binary with `0b`, 0 to 255 (R65). -/
def immediateOf (cs : List Char) : Option Byte :=
  let number := match cs with
    | [] => none
    | ['0', 'x'] => none
    | ['0', 'b'] => none
    | '0' :: 'x' :: ds => digits 16 ds 0
    | '0' :: 'b' :: ds => digits 2 ds 0
    | ds => digits 10 ds 0
  number.bind fun n => if n ≤ 255 then some (BitVec.ofNat 8 n) else none

/-- A register operand: `R0` to `R7` (R65). -/
def registerOf : List Char → Option Byte
  | ['R', d] => (digitValue 8 d).map (BitVec.ofNat 8)
  | _ => none

/-- The instruction of a mnemonic and its written operands; there is none but the nine (R66). -/
def build (mnemonic : List Char) (operands : List (List Char)) : Option Instr :=
  match mnemonic, operands with
  | ['L', 'D', 'I'], [r, v] => (registerOf r).bind fun a => (immediateOf v).map fun b => .ldi a b
  | ['P', 'R', 'N'], [r] => (registerOf r).map .prn
  | ['M', 'U', 'L'], [r, q] => (registerOf r).bind fun a => (registerOf q).map fun b => .mul a b
  | ['A', 'D', 'D'], [r, q] => (registerOf r).bind fun a => (registerOf q).map fun b => .add a b
  | ['P', 'U', 'S', 'H'], [r] => (registerOf r).map .push
  | ['P', 'O', 'P'], [r] => (registerOf r).map .pop
  | ['C', 'A', 'L', 'L'], [r] => (registerOf r).map .call
  | ['R', 'E', 'T'], [] => some .ret
  | ['H', 'L', 'T'], [] => some .hlt
  | _, _ => none

/-- One written instruction: the mnemonic, then its operands separated by commas (R65). -/
def parse (cs : List Char) : Option Instr :=
  let t := trim cs
  let mnemonic := t.takeWhile (· ≠ ' ')
  match trim (t.drop mnemonic.length) with
  | [] => build mnemonic []
  | rest => build mnemonic ((split (· = ',') rest).map trim)

/-- The bytes of a program text: instructions separated by new lines or by `;`, empty ones left out (R65). -/
def assemble (cs : List Char) : Option (List Byte) :=
  let pieces := ((split (fun c => c = '\n' || c = ';') cs).map trim).filter (· ≠ [])
  (pieces.mapM parse).map fun is => is.flatMap encode

end Sys2Proof.Machine.Asm
end

