-- ==== Sys2Proof/Machine/HostPort.lean ====
section
/-! DEFINITION. The host's operations on the CORE (R167): `construct()`, `load_bytes`, `run()`, and the output sink,
whose content is the state's output trace (R27, R35). -/

namespace Sys2Proof.Machine

/-- `construct()` (R165): the only reset. -/
def construct : State := State.reset

/-- `load_bytes(bytes, start)` (R168): each value in order to the next address, exactly as `MemWrite` does. An
address or a value outside 0 to 255 refuses the call with `OutOfRangeAddress`; no state is answered then, since the
engine must not be run. The host uses it between `construct()` and `run()` only, which is the host's duty. -/
def loadBytes : List Int → Int → State → Except ErrorKind State
  | [], _, s => .ok s
  | v :: vs, start, s =>
    if 0 ≤ v ∧ v ≤ 255 then
      match memWrite start (BitVec.ofInt 8 v) s with
      | .ok t => loadBytes vs (start + 1) t
      | .error r => .error r.kind
    else .error .outOfRangeAddress

/-- `RunResult` (R167). -/
inductive RunResult where
  | halted
  | error (kind : ErrorKind) (pc : Nat) (detail : Int)
deriving DecidableEq, Repr

/-- What `run()` returns in a state whose status is terminal; none while Running (R83). -/
def State.result (s : State) : Option RunResult :=
  match s.status with
  | .running => none
  | .halted => some .halted
  | .error k p d => some (.error k p d)

/-- At most `n` rounds of the loop of `run()` (R83): Step while the status is Running. The bound belongs to this
function, not to the machine: the engine sets none (R84). -/
def runSteps : Nat → State → State
  | 0, s => s
  | n + 1, s =>
    match step s with
    | .next t => runSteps n t
    | .fault _ => s
    | .refused _ => s

/-- `run()` from `s` returns `r` (R83, R177): after some number of steps the status is terminal with that result.
A run that never ends returns nothing (R84). -/
def RunReturns (s : State) (r : RunResult) : Prop := ∃ n, (runSteps n s).result = some r

/-- `run()` from `s` never returns: an infinite execution (R84, R177). -/
def RunsForever (s : State) : Prop := ∀ n, (runSteps n s).status = .running

end Sys2Proof.Machine
end

