-- ==== Sys2Proof/Safety.lean ====
section
/-! DEFINITION. The terms claims use: what an error leaves, the causes of an error, the bytes at the program counter,
the register table of R19, frames, the invariant of every step, the run of a list of instructions, and program texts. -/

namespace Sys2Proof.Machine

/-- The outcome is an error taken from `s`: a next state whose status is the record of R147, with the pc the step
began with, and whose output is what had been emitted (R153). It says nothing of memory and registers, which are
unspecified then (R152). -/
def Raises (o : Host.Outcome State Fault Refusal) (s : State) (k : ErrorKind) (d : Int) : Prop :=
  ∃ t, o = .next t ∧ t.status = .error k s.pc d ∧ t.out = s.out

/-- The status is an error record (R24). -/
def State.failed (s : State) : Bool :=
  match s.status with
  | .error _ _ _ => true
  | .running => false
  | .halted => false

/-- The bytes from `pc` up that exist, at most the three of the longest instruction (R55). -/
def State.codeAt (s : State) : List Byte :=
  ((List.range (256 - s.pc)).take 3).map fun k => s.mem.read (s.pc + k)

/-- The engine is Running and the bytes from `pc` up, all below address 256, are `bs`. -/
abbrev State.at (s : State) (bs : List Byte) : Prop :=
  s.status = .running ∧ s.pc + bs.length ≤ 256 ∧
    (List.range bs.length).map (fun k => s.mem.read (s.pc + k)) = bs

/-! ### Frames -/

/-- Every register but those listed is unchanged. -/
abbrev RegsKeptBut (ds : List RegIx) (s t : State) : Prop := ∀ i : RegIx, i ∉ ds → t.reg i = s.reg i

/-- Every cell but those listed is unchanged. -/
def MemKeptBut (as : List Nat) (s t : State) : Prop := ∀ a : Nat, a ∉ as → t.mem.read a = s.mem.read a

/-- The registers an instruction writes, R19's table. -/
def writtenRegs : Instr → List Nat
  | .ldi r _ => [r.toNat]
  | .prn _ => []
  | .mul a _ => [a.toNat]
  | .add a _ => [a.toNat]
  | .push _ => [7]
  | .pop r => [r.toNat, 7]
  | .call _ => [7]
  | .ret => [7]
  | .hlt => []

/-- The registers an instruction reads, R19's table. -/
def readRegs : Instr → List Nat
  | .ldi _ _ => []
  | .prn r => [r.toNat]
  | .mul a b => [a.toNat, b.toNat]
  | .add a b => [a.toNat, b.toNat]
  | .push r => [7, r.toNat]
  | .pop _ => [7]
  | .call r => [7, r.toNat]
  | .ret => [7]
  | .hlt => []

/-! ### Errors -/

/-- The causes of an error in a Running state, with the detail its record carries: the table of R146 and R148, said
of the bytes at `pc`. POP's row follows R118's pseudocode (assumption log 5). -/
inductive Cause (s : State) : ErrorKind → Int → Prop where
  | opcodeFetch (h : 255 < s.pc) : Cause s .outOfRangeAddress s.pc
  | unknownOpcode (h : s.pc ≤ 255) (hop : s.mem.read s.pc ∉ opcodeMap.values) :
      Cause s .unknownInstruction (s.mem.read s.pc).toNat
  | operandFetch (k : Nat) (h : s.pc ≤ 255) (hop : s.mem.read s.pc ∈ opcodeMap.values)
      (hk : k ≤ operandCount (s.mem.read s.pc)) (ha : s.pc + k = 256) : Cause s .outOfRangeAddress 256
  | registerA (h : s.pc ≤ 254) (hop : s.mem.read s.pc ∈ [0x82#8, 0x47#8, 0xA2#8, 0xA0#8, 0x45#8, 0x46#8, 0x50#8])
      (ha : 7 < (s.mem.read (s.pc + 1)).toNat) : Cause s .outOfRangeAddress (s.mem.read (s.pc + 1)).toNat
  | registerB (h : s.pc ≤ 253) (hop : s.mem.read s.pc ∈ [0xA2#8, 0xA0#8])
      (hb : 7 < (s.mem.read (s.pc + 2)).toNat) : Cause s .outOfRangeAddress (s.mem.read (s.pc + 2)).toNat
  | stackBelowZero (h : s.pc ≤ 255) (hop : s.mem.read s.pc ∈ [0x45#8, 0x50#8]) (hs : s.sp = 0#8) :
      Cause s .outOfRangeAddress (-1)
  | popAbove (h : s.pc ≤ 255) (hop : s.mem.read s.pc = 0x46#8) (hr : s.mem.read (s.pc + 1) ≠ 7#8)
      (hs : s.sp = 255#8) : Cause s .outOfRangeAddress 256
  | popIntoSp (h : s.pc ≤ 255) (hop : s.mem.read s.pc = 0x46#8) (hr : s.mem.read (s.pc + 1) = 7#8)
      (hv : s.mem.read s.sp.toNat = 255#8) : Cause s .outOfRangeAddress 256
  | retAbove (h : s.pc ≤ 255) (hop : s.mem.read s.pc = 0x11#8) (hs : s.sp = 255#8) :
      Cause s .outOfRangeAddress 256
  | returnAddress (hp : s.pc = 254) (hop : s.mem.read s.pc = 0x50#8) : Cause s .outOfRangeAddress 256

/-- The error records that can occur (R146, R148), by kind, record pc and detail. -/
def RecordPossible : ErrorKind → Nat → Int → Prop
  | .outOfRangeAddress, p, d =>
    (p ≤ 255 ∧ (d = -1 ∨ 8 ≤ d ∧ d ≤ 256)) ∨ (256 ≤ p ∧ p ≤ 258 ∧ d = p)
  | .unknownInstruction, p, d => p ≤ 255 ∧ ∃ op : Byte, op ∉ opcodeMap.values ∧ d = op.toNat

/-! ### The invariant -/

/-- What every step keeps: memory in its canonical form with every cell below 256 (R15), pc at most 258 (R79), and
an error record one of those that can occur, with the pc of the failing instruction (R146 to R148). -/
structure State.Inv (s : State) : Prop where
  mem : s.mem.wf
  pc : s.pc ≤ 258
  record : ∀ k p d, s.status = .error k p d → p = s.pc ∧ RecordPossible k p d

/-! ### A list of instructions run one after another -/

/-- Run instructions one after another while the status stays Running. -/
def execAll : List Instr → State → Host.Outcome State Fault Refusal
  | [], s => .next s
  | i :: is, s =>
    match exec i s with
    | .next t => if t.status = .running then execAll is t else .next t
    | .fault r => .fault r
    | .refused r => .refused r

/-- PUSH of register `r`, its operand the byte `r`. -/
def pushOf (r : RegIx) : Instr := .push (BitVec.ofNat 8 r.val)

/-- POP into register `r`. -/
def popOf (r : RegIx) : Instr := .pop (BitVec.ofNat 8 r.val)

/-! ### Program texts -/

/-- A program text: every instruction but the last is followed by a separator and any number of spaces. -/
def Asm.listing : List (Instr × Char × Nat) → Instr → List Char
  | [], last => (Asm.text last).getD []
  | (i, separator, spaces) :: is, last =>
    (Asm.text i).getD [] ++ separator :: (List.replicate spaces ' ' ++ Asm.listing is last)

/-- The value of a numeral, its most significant digit first. -/
def Asm.numeralValue (base : Nat) (ds : List Nat) : Nat := ds.foldl (fun n d => n * base + d) 0

end Sys2Proof.Machine
end

