-- ==== Sys2Proof/Certificates/Slice0/Obligations.lean ====
section
/-! DEFINITION. The statements for the provers. Each docstring names the rule of spec/ it formalises.
`Raises o s k d` says that `o` is an error taken from `s` with kind `k` and detail `d`; `s.at bs` says that `s` is
Running with the bytes `bs` at its pc. Nothing is said of memory or registers after an error (R152).
In every statement `Raises` fixes the record's pc and detail as R147 does (decision D13) and keeps the output as R153
does (decision D8; both log 11), and an opcode byte is that of R59's map (decision D1, log 2). -/

open Sys2Proof Sys2Proof.Machine

/-! ### Reset and the invariant -/

/-- R30: every piece of state after `construct()`. -/
def Obligations.ResetGivesTheConstructionTable : Prop :=
  (∀ a : Nat, construct.mem.read a = 0#8) ∧ (∀ i : RegIx, i ≠ 7 → construct.reg i = 0#8) ∧
    construct.reg 7 = 244#8 ∧ construct.pc = 0 ∧ construct.status = .running ∧ construct.out = [] ∧
    construct = State.reset

/-- The state after reset meets the invariant. -/
def Obligations.ResetMeetsTheInvariant : Prop := State.reset.Inv

/-- Every step keeps the invariant: canonical memory within 256 cells (R15), pc at most 258 (R79), and only the error
records of R146 and R148, at the failing instruction's pc (R147). The canonical form and the unchanged pc of an
error are the model's (logs 3 and 7). -/
def Obligations.StepKeepsTheInvariant : Prop :=
  ∀ s t : State, s.Inv → step s = .next t → t.Inv

/-! ### Encoding and decoding -/

/-- Under EVERY opcode map that R58 admits (not only the default of R59), decoding the bytes of any instruction,
well formed or not, gives it back with all operand bits, and the bytes after it. -/
def Obligations.DecodeOfEncodeGivesTheInstruction : Prop :=
  ∀ (m : Config.OpcodeMap) (i : Instr) (rest : List Byte), m.Valid →
    decodeWith m (encodeWith m i ++ rest) = .ok (i, rest)

/-- Under every opcode map that R58 admits, the bytes an instruction was decoded from are its encoding and what
follows: each byte sequence has one meaning. -/
def Obligations.DecodedBytesAreTheEncoding : Prop :=
  ∀ (m : Config.OpcodeMap) (bs rest : List Byte) (i : Instr), m.Valid →
    decodeWith m bs = .ok (i, rest) → bs = encodeWith m i ++ rest

/-- R67: the words of the assembler forms, bit by bit, decode to the instructions they stand for. -/
def Obligations.SpecWordsDecode : Prop :=
  decode [0b10000010#8, 0b00000000#8, 0b00001000#8] = .ok (.ldi 0 8, []) ∧
  decode [0b01000111#8, 0b00000101#8] = .ok (.prn 5, []) ∧
  decode [0b10100010#8, 0b00000011#8, 0b00000001#8] = .ok (.mul 3 1, []) ∧
  decode [0b10100000#8, 0b00000000#8, 0b00000010#8] = .ok (.add 0 2, []) ∧
  decode [0b01000101#8, 0b00000111#8] = .ok (.push 7, []) ∧
  decode [0b01000110#8, 0b00001000#8] = .ok (.pop 8, []) ∧
  decode [0b01010000#8, 0b00000001#8] = .ok (.call 1, []) ∧
  decode [0b00010001#8] = .ok (.ret, []) ∧
  decode [0b00000001#8, 0b11111111#8] = .ok (.hlt, [0xFF#8])

/-- R58, R63: the opcode map of this hardware meets the constraints, exactly nine of the 256 byte values have a
handler, and no byte `0b11xxxxxx` has one. -/
def Obligations.ExactlyNineOpcodes : Prop :=
  opcodeMap.Valid ∧
  (∀ op : Byte, lookup opcodeMap op ≠ none ↔
    op ∈ [0x82#8, 0x47#8, 0xA2#8, 0xA0#8, 0x45#8, 0x46#8, 0x50#8, 0x11#8, 0x01#8]) ∧
  (∀ op : Byte, op.extractLsb 7 6 = 3#2 → lookup opcodeMap op = none)

/-- R56, R57: under every map R58 admits the operand count is bits 7:6 of the opcode byte, and the length of an
instruction is that plus 1. -/
def Obligations.LengthIsOperandCountPlusOne : Prop :=
  (∀ op : Byte, operandCount op = (op.extractLsb 7 6).toNat) ∧
  ∀ (m : Config.OpcodeMap) (i : Instr), m.Valid →
    ∃ op operands, encodeWith m i = op :: operands ∧ operands.length = operandCount op ∧
      operandCount op ≤ Config.maxOperands

/-! ### The ports: memory, registers, ALU, stack pointer -/

/-- R11: a write inside 0 to 255 stores the value in that cell alone, a read returns it; any other address, negative
ones included, accesses nothing and raises. -/
def Obligations.MemoryPortReadsWhatWasWritten : Prop :=
  ∀ (s : State) (a : Int) (v : Byte),
    (0 ≤ a ∧ a ≤ 255 → ∃ t, memWrite a v s = .ok t ∧ memRead a t = .ok v ∧
      (∀ b : Int, b ≠ a → memRead b t = memRead b s) ∧
      t.regs = s.regs ∧ t.pc = s.pc ∧ t.status = s.status ∧ t.out = s.out) ∧
    (a < 0 ∨ 255 < a → memWrite a v s = .error ⟨.outOfRangeAddress, a⟩ ∧
      memRead a s = .error ⟨.outOfRangeAddress, a⟩)

/-- Memory is canonical (log 7): two memories in the canonical form whose cells read alike are the same data. -/
def Obligations.EqualReadsGiveEqualMemory : Prop :=
  ∀ m n : Memory, m.wf → n.wf → (∀ a : Nat, a ≤ 255 → m.read a = n.read a) → m = n

/-- R9, R10: `x[i] <- v` stores `v mod 256` for every integer `v`, in that register alone. SP is `x[7]`. -/
def Obligations.RegisterWriteStoresMod256 : Prop :=
  ∀ (s : State) (i : RegIx) (v : Int),
    (((s.writeReg i v).reg i).toNat : Int) = v % 256 ∧ RegsKeptBut [i] s (s.writeReg i v) ∧ s.sp = s.reg 7 ∧
    (s.writeReg i v).mem = s.mem ∧ (s.writeReg i v).pc = s.pc ∧ (s.writeReg i v).status = s.status ∧
    (s.writeReg i v).out = s.out

/-- R12: an operand byte up to 7 is the register of that number; any other raises with the byte as detail. -/
def Obligations.RegisterIndexIsChecked : Prop :=
  ∀ b : Byte, (b.toNat ≤ 7 → ∃ r : RegIx, regIndex b = .ok r ∧ r.val = b.toNat) ∧
    (7 < b.toNat → regIndex b = .error ⟨.outOfRangeAddress, b.toNat⟩)

/-- R100, R101, R103: the ALU writes the sum or the product mod 256 of the two OLD register values, also where both
operands are one register, and no other register. -/
def Obligations.AluWrapsAndReadsFirst : Prop :=
  ∀ (s : State) (a b : RegIx),
    ((aluApply .add a b s).reg a).toNat = ((s.reg a).toNat + (s.reg b).toNat) % 256 ∧
    ((aluApply .multiply a b s).reg a).toNat = ((s.reg a).toNat * (s.reg b).toNat) % 256 ∧
    RegsKeptBut [a] s (aluApply .add a b s) ∧ RegsKeptBut [a] s (aluApply .multiply a b s)

/-- R116 (decision D5, log 11): the stack's two primitives are checked and never wrap, and change SP alone; other
writes of register 7 wrap. -/
def Obligations.StackPointerIsCheckedNotWrapped : Prop :=
  ∀ s : State,
    (s.sp.toNat = 0 → spDec s = .error ⟨.outOfRangeAddress, -1⟩) ∧
    (0 < s.sp.toNat → ∃ t, spDec s = .ok t ∧ t.sp.toNat + 1 = s.sp.toNat ∧ RegsKeptBut [7] s t ∧ t.mem = s.mem ∧
      t.pc = s.pc ∧ t.status = s.status ∧ t.out = s.out) ∧
    (s.sp.toNat = 255 → spInc s = .error ⟨.outOfRangeAddress, 256⟩) ∧
    (s.sp.toNat < 255 → ∃ t, spInc s = .ok t ∧ t.sp.toNat = s.sp.toNat + 1 ∧ RegsKeptBut [7] s t ∧ t.mem = s.mem ∧
      t.pc = s.pc ∧ t.status = s.status ∧ t.out = s.out) ∧
    (∀ v : Int, ((s.writeReg 7 v).sp.toNat : Int) = v % 256)

/-! ### The nine instructions. Each: the bytes run it, where it completes and with what effect and frame, where it
raises. The machine has no flags, so a frame of memory, registers, pc, status and output is whole (R26, R29). -/

/-- R91, the whole of LDI. The bytes are those of D1 (log 2); the records of its errors and the output kept are R147's
(D13) and R153's (D8), log 11. -/
def Obligations.LdiLoadsTheImmediate : Prop :=
  ∀ (s : State) (a b : Byte),
    (s.at [0x82#8, a, b] → step s = exec (.ldi a b) s) ∧
    (∀ r : RegIx, a.toNat = r.val → ∃ t, exec (.ldi a b) s = .next t ∧ t.reg r = b ∧ t.pc = s.pc + 3 ∧
      RegsKeptBut [r] s t ∧ MemKeptBut [] s t ∧ t.status = s.status ∧ t.out = s.out) ∧
    (7 < a.toNat → Raises (exec (.ldi a b) s) s .outOfRangeAddress a.toNat) ∧
    (s.status = .running → s.pc = 254 → s.mem.read s.pc = 0x82#8 → Raises (step s) s .outOfRangeAddress 256) ∧
    (s.status = .running → s.pc = 255 → s.mem.read s.pc = 0x82#8 → Raises (step s) s .outOfRangeAddress 256)

/-- R92, the whole of PRN: it appends the register's value to the output (D11: the value as a byte). -/
def Obligations.PrnEmitsTheRegister : Prop :=
  ∀ (s : State) (a : Byte),
    (s.at [0x47#8, a] → step s = exec (.prn a) s) ∧
    (∀ r : RegIx, a.toNat = r.val → ∃ t, exec (.prn a) s = .next t ∧ t.out = s.out ++ [s.reg r] ∧ t.pc = s.pc + 2 ∧
      RegsKeptBut [] s t ∧ MemKeptBut [] s t ∧ t.status = s.status) ∧
    (7 < a.toNat → Raises (exec (.prn a) s) s .outOfRangeAddress a.toNat) ∧
    (s.status = .running → s.pc = 255 → s.mem.read s.pc = 0x47#8 → Raises (step s) s .outOfRangeAddress 256)

/-- R104 with R101, the whole of MUL; operand A is checked before operand B (D3). The bytes are those of D1 (log 2); the
records of its errors and the output kept are R147's (D13) and R153's (D8), log 11. -/
def Obligations.MulWritesTheProduct : Prop :=
  ∀ (s : State) (a b : Byte),
    (s.at [0xA2#8, a, b] → step s = exec (.mul a b) s) ∧
    (∀ r q : RegIx, a.toNat = r.val → b.toNat = q.val → ∃ t, exec (.mul a b) s = .next t ∧
      (t.reg r).toNat = ((s.reg r).toNat * (s.reg q).toNat) % 256 ∧ t.pc = s.pc + 3 ∧
      RegsKeptBut [r] s t ∧ MemKeptBut [] s t ∧ t.status = s.status ∧ t.out = s.out) ∧
    (7 < a.toNat → Raises (exec (.mul a b) s) s .outOfRangeAddress a.toNat) ∧
    (a.toNat ≤ 7 → 7 < b.toNat → Raises (exec (.mul a b) s) s .outOfRangeAddress b.toNat) ∧
    (s.status = .running → s.pc = 254 → s.mem.read s.pc = 0xA2#8 → Raises (step s) s .outOfRangeAddress 256) ∧
    (s.status = .running → s.pc = 255 → s.mem.read s.pc = 0xA2#8 → Raises (step s) s .outOfRangeAddress 256)

/-- R105 with R100, the whole of ADD; operand A is checked before operand B (D3). The bytes are those of D1 (log 2); the
records of its errors and the output kept are R147's (D13) and R153's (D8), log 11. -/
def Obligations.AddWritesTheSum : Prop :=
  ∀ (s : State) (a b : Byte),
    (s.at [0xA0#8, a, b] → step s = exec (.add a b) s) ∧
    (∀ r q : RegIx, a.toNat = r.val → b.toNat = q.val → ∃ t, exec (.add a b) s = .next t ∧
      (t.reg r).toNat = ((s.reg r).toNat + (s.reg q).toNat) % 256 ∧ t.pc = s.pc + 3 ∧
      RegsKeptBut [r] s t ∧ MemKeptBut [] s t ∧ t.status = s.status ∧ t.out = s.out) ∧
    (7 < a.toNat → Raises (exec (.add a b) s) s .outOfRangeAddress a.toNat) ∧
    (a.toNat ≤ 7 → 7 < b.toNat → Raises (exec (.add a b) s) s .outOfRangeAddress b.toNat) ∧
    (s.status = .running → s.pc = 254 → s.mem.read s.pc = 0xA0#8 → Raises (step s) s .outOfRangeAddress 256) ∧
    (s.status = .running → s.pc = 255 → s.mem.read s.pc = 0xA0#8 → Raises (step s) s .outOfRangeAddress 256)

/-- R117, the whole of PUSH: the byte goes to the decremented SP. PUSH R7 stores the decremented SP (D7). -/
def Obligations.PushStoresBelowTheStackPointer : Prop :=
  ∀ (s : State) (a : Byte),
    (s.at [0x45#8, a] → step s = exec (.push a) s) ∧
    (∀ r : RegIx, a.toNat = r.val → 0 < s.sp.toNat → ∃ t, exec (.push a) s = .next t ∧
      t.sp.toNat = s.sp.toNat - 1 ∧
      t.mem.read (s.sp.toNat - 1) = (if r = 7 then BitVec.ofNat 8 (s.sp.toNat - 1) else s.reg r) ∧
      t.pc = s.pc + 2 ∧ RegsKeptBut [7] s t ∧ MemKeptBut [s.sp.toNat - 1] s t ∧ t.status = s.status ∧
      t.out = s.out) ∧
    (7 < a.toNat → Raises (exec (.push a) s) s .outOfRangeAddress a.toNat) ∧
    (a.toNat ≤ 7 → s.sp = 0#8 → Raises (exec (.push a) s) s .outOfRangeAddress (-1)) ∧
    (s.status = .running → s.pc = 255 → s.mem.read s.pc = 0x45#8 → Raises (step s) s .outOfRangeAddress 256)

/-- R118's pseudocode: POP loads at the old SP, writes the register, then increments SP. For R7 the incremented
value is the popped one (D7), whatever SP was (log 5, the model's reading where SP is 255). -/
def Obligations.PopLoadsAtTheStackPointer : Prop :=
  ∀ (s : State) (a : Byte),
    (s.at [0x46#8, a] → step s = exec (.pop a) s) ∧
    (∀ r : RegIx, r ≠ 7 → a.toNat = r.val → s.sp.toNat < 255 → ∃ t, exec (.pop a) s = .next t ∧
      t.reg r = s.mem.read s.sp.toNat ∧ t.sp.toNat = s.sp.toNat + 1 ∧ t.pc = s.pc + 2 ∧
      RegsKeptBut [r, 7] s t ∧ MemKeptBut [] s t ∧ t.status = s.status ∧ t.out = s.out) ∧
    (a = 7#8 → s.mem.read s.sp.toNat ≠ 255#8 → ∃ t, exec (.pop a) s = .next t ∧
      t.sp.toNat = (s.mem.read s.sp.toNat).toNat + 1 ∧ t.pc = s.pc + 2 ∧
      RegsKeptBut [7] s t ∧ MemKeptBut [] s t ∧ t.status = s.status ∧ t.out = s.out) ∧
    (7 < a.toNat → Raises (exec (.pop a) s) s .outOfRangeAddress a.toNat) ∧
    (a.toNat < 7 → s.sp = 255#8 → Raises (exec (.pop a) s) s .outOfRangeAddress 256) ∧
    (a = 7#8 → s.mem.read s.sp.toNat = 255#8 → Raises (exec (.pop a) s) s .outOfRangeAddress 256) ∧
    (s.status = .running → s.pc = 255 → s.mem.read s.pc = 0x46#8 → Raises (step s) s .outOfRangeAddress 256)

/-- R130, R131, the whole of CALL: the return address goes to the decremented SP and pc becomes the register, which
for R7 is the decremented SP (D7). SP is checked before the return address. -/
def Obligations.CallPushesTheReturnAddress : Prop :=
  ∀ (s : State) (a : Byte),
    (s.at [0x50#8, a] → step s = exec (.call a) s) ∧
    (∀ r : RegIx, a.toNat = r.val → 0 < s.sp.toNat → s.pc ≤ 253 → ∃ t, exec (.call a) s = .next t ∧
      t.sp.toNat = s.sp.toNat - 1 ∧ (t.mem.read (s.sp.toNat - 1)).toNat = s.pc + 2 ∧
      t.pc = (if r = 7 then s.sp.toNat - 1 else (s.reg r).toNat) ∧
      RegsKeptBut [7] s t ∧ MemKeptBut [s.sp.toNat - 1] s t ∧ t.status = s.status ∧ t.out = s.out) ∧
    (7 < a.toNat → Raises (exec (.call a) s) s .outOfRangeAddress a.toNat) ∧
    (a.toNat ≤ 7 → s.sp = 0#8 → Raises (exec (.call a) s) s .outOfRangeAddress (-1)) ∧
    (a.toNat ≤ 7 → 0 < s.sp.toNat → s.pc = 254 → Raises (exec (.call a) s) s .outOfRangeAddress 256) ∧
    (s.status = .running → s.pc = 255 → s.mem.read s.pc = 0x50#8 → Raises (step s) s .outOfRangeAddress 256)

/-- R133 with R116, the whole of RET. The byte is that of D1 (log 2); the error at SP 255 is D5's; its record and the
output kept are R147's (D13) and R153's (D8), log 11. -/
def Obligations.RetTakesTheReturnAddress : Prop :=
  ∀ s : State,
    (s.at [0x11#8] → step s = exec .ret s) ∧
    (s.sp.toNat < 255 → ∃ t, exec .ret s = .next t ∧ t.pc = (s.mem.read s.sp.toNat).toNat ∧
      t.sp.toNat = s.sp.toNat + 1 ∧ RegsKeptBut [7] s t ∧ MemKeptBut [] s t ∧ t.status = s.status ∧
      t.out = s.out) ∧
    (s.sp = 255#8 → Raises (exec .ret s) s .outOfRangeAddress 256)

/-- R134, the whole of HLT: Halted, and everything else as it was; HLT never raises. -/
def Obligations.HltHaltsAndChangesNothingElse : Prop :=
  ∀ s : State,
    (s.at [0x01#8] → step s = exec .hlt s) ∧
    ∃ t, exec .hlt s = .next t ∧ t.status = .halted ∧ t.pc = s.pc ∧ RegsKeptBut [] s t ∧ MemKeptBut [] s t ∧
      t.out = s.out

/-! ### Frames -/

/-- The frame of the forms that use no stack: LDI, PRN, MUL, ADD. Every register but LDI's, MUL's and ADD's operand A is
unchanged, all of memory and the status are, and the output but for PRN's. -/
def Obligations.FrameOfRegisterInstructions : Prop :=
  ∀ (i : Instr) (s t : State), (∃ a b, i = .ldi a b ∨ i = .prn a ∨ i = .mul a b ∨ i = .add a b) →
    exec i s = .next t → t.failed = false →
    (∀ r : RegIx, r.val ∉ writtenRegs i → t.reg r = s.reg r) ∧ (∀ x : Nat, t.mem.read x = s.mem.read x) ∧
    t.status = s.status ∧ ((∀ a, i ≠ .prn a) → t.out = s.out)

/-- The frame of the forms that load from the stack: POP (its register and SP change) and RET (SP changes). -/
def Obligations.FrameOfStackLoads : Prop :=
  ∀ (i : Instr) (s t : State), (i = .ret ∨ ∃ a, i = .pop a) →
    exec i s = .next t → t.failed = false →
    (∀ r : RegIx, r.val ∉ writtenRegs i → t.reg r = s.reg r) ∧ (∀ x : Nat, t.mem.read x = s.mem.read x) ∧
    t.status = s.status ∧ t.out = s.out

/-- The frame of the forms that store: PUSH and CALL. SP is the only register that changes, and the byte stored to is
the one at the SP that `SPDec` leaves, the address the meanings store to. -/
def Obligations.FrameOfStackStores : Prop :=
  ∀ (i : Instr) (s t : State), (∃ a, i = .push a ∨ i = .call a) →
    exec i s = .next t → t.failed = false →
    (∀ r : RegIx, r ≠ 7 → t.reg r = s.reg r) ∧
    (∀ s1 : State, spDec s = .ok s1 → ∀ x : Nat, x ≠ s1.sp.toNat → t.mem.read x = s.mem.read x) ∧
    (∃ s1 : State, spDec s = .ok s1) ∧ t.status = s.status ∧ t.out = s.out

/-- R19, both columns: an instruction that raises nothing changes only the registers of the written column, and what it
does depends on no register outside the read column: from states that differ only in other registers it also
raises nothing, and leaves the same pc, memory, status, output and written registers. -/
def Obligations.RegistersReadAndWrittenTable : Prop :=
  ∀ (i : Instr) (s s' t t' : State), exec i s = .next t → exec i s' = .next t' → t.failed = false →
    s'.mem = s.mem → s'.pc = s.pc → s'.status = s.status → s'.out = s.out →
    (∀ r : RegIx, r.val ∈ readRegs i → s'.reg r = s.reg r) →
    (∀ r : RegIx, r.val ∉ writtenRegs i → t.reg r = s.reg r) ∧
    t'.failed = false ∧ t'.pc = t.pc ∧ t'.mem = t.mem ∧ t'.status = t.status ∧ t'.out = t.out ∧
    (∀ r : RegIx, r.val ∈ writtenRegs i → t'.reg r = t.reg r)

/-! ### The step -/

/-- R75, R81: where the bytes at the pc decode to an instruction, well formed or not, the step is exactly that
instruction's meaning. -/
def Obligations.StepRunsTheDecodedInstruction : Prop :=
  ∀ (s : State) (i : Instr) (rest : List Byte), s.status = .running →
    decode s.codeAt = .ok (i, rest) → step s = exec i s

/-- R76 to R78: where the bytes at the pc do not decode, the step raises what the decoder refused by name. -/
def Obligations.StepRaisesWhatTheDecoderRefuses : Prop :=
  ∀ s : State, s.status = .running →
    (∀ op : Byte, decode s.codeAt = .error (.unknownOpcode op) →
      Raises (step s) s .unknownInstruction op.toNat) ∧
    (∀ k : Nat, decode s.codeAt = .error (.missingByte k) →
      Raises (step s) s .outOfRangeAddress (s.pc + k : Nat))

/-- R76: a fetch at pc above 255 raises with that pc as record pc and as detail. -/
def Obligations.OpcodeFetchPastTheTopRaises : Prop :=
  ∀ s : State, s.status = .running → 255 < s.pc →
    ∃ t, step s = .next t ∧ t.status = .error .outOfRangeAddress s.pc s.pc

/-- R77, R148: each of the 247 bytes that are no opcode raises, wherever it lies: no operand is fetched first, at 254
and 255 either. -/
def Obligations.UnknownOpcodeRaisesBeforeOperands : Prop :=
  ∀ s : State, s.status = .running → s.pc ≤ 255 →
    s.mem.read s.pc ∉ [0x82#8, 0x47#8, 0xA2#8, 0xA0#8, 0x45#8, 0x46#8, 0x50#8, 0x11#8, 0x01#8] →
    Raises (step s) s .unknownInstruction (s.mem.read s.pc).toNat

/-- R78: exactly the declared operand bytes are read. An instruction whose declared bytes lie below 256 runs, format I0
at 255 and I1 at 254 among them; otherwise the first address above 255 is raised. The opcodes are those of D1 (log 2);
the record and the output kept are R147's (D13) and R153's (D8), log 11. -/
def Obligations.OnlyDeclaredOperandsAreFetched : Prop :=
  ∀ (s : State) (build : Byte → Byte → Instr), s.status = .running → s.pc ≤ 255 →
    lookup opcodeMap (s.mem.read s.pc) = some build →
    (s.pc + operandCount (s.mem.read s.pc) ≤ 255 →
      step s = exec (build (s.mem.read (s.pc + 1)) (s.mem.read (s.pc + 2))) s) ∧
    (255 < s.pc + operandCount (s.mem.read s.pc) →
      Raises (step s) s .outOfRangeAddress (if 255 < s.pc + 1 then s.pc + 1 else s.pc + 2 : Nat))

/-- R79: the default advance is the operand count plus 1, not reduced mod 256; a pc it leaves above 255 makes the
next step raise. -/
def Obligations.DefaultAdvanceIsNotWrapped : Prop :=
  ∀ s t : State, s.status = .running → step s = .next t → t.failed = false →
    s.mem.read s.pc ∉ [0x50#8, 0x11#8, 0x01#8] →
    t.pc = s.pc + operandCount (s.mem.read s.pc) + 1 ∧ t.pc ≤ 258 ∧
    (255 < t.pc → Raises (step t) t .outOfRangeAddress t.pc)

/-- R146, R148, both ways: a step of a Running engine raises only for a listed cause, with that cause's detail and the
pc it began with; and wherever some cause holds, it raises. (POP's row as log 5 reads it.) -/
def Obligations.ErrorsHaveExactlyTheListedCauses : Prop :=
  ∀ s : State, s.status = .running →
    (∀ (t : State) (k : ErrorKind) (p : Nat) (d : Int), step s = .next t → t.status = .error k p d →
      p = s.pc ∧ Cause s k d) ∧
    (∀ (k : ErrorKind) (d : Int), Cause s k d → ∃ k' d', Raises (step s) s k' d' ∧ Cause s k' d')

/-- R75, R85: a Running engine always has a step; a Halted or Error one has none. -/
def Obligations.OnlyARunningEngineSteps : Prop :=
  ∀ s : State, s.status = .running ↔ ∃ t, step s = .next t

/-- R86: a step's result depends only on memory, the registers, pc and the status. After an error this says nothing
of memory and registers (R152). -/
def Obligations.StepDependsOnMachineStateOnly : Prop :=
  ∀ s s' t : State, s'.mem = s.mem → s'.regs = s.regs → s'.pc = s.pc → s'.status = s.status →
    step s = .next t →
    ∃ t', step s' = .next t' ∧ t'.pc = t.pc ∧ t'.status = t.status ∧
      (t.failed = false → t'.mem = t.mem ∧ t'.regs = t.regs) ∧
      ∃ emitted, t.out = s.out ++ emitted ∧ t'.out = s'.out ++ emitted

/-! ### Rules about the whole machine -/

/-- R24, R134: Halted is reached only by executing HLT, and the state is otherwise as it was. -/
def Obligations.OnlyHltReachesHalted : Prop :=
  ∀ s t : State, step s = .next t → t.status = .halted →
    s.status = .running ∧ s.pc ≤ 255 ∧ s.mem.read s.pc = 0x01#8 ∧ t.pc = s.pc ∧ t.mem = s.mem ∧ t.regs = s.regs ∧
    t.out = s.out

/-- R27, R92, R153: only PRN appends to the output, one value, that of its register; every other step, a raising one
too, leaves it. -/
def Obligations.OnlyPrnAppendsToTheOutput : Prop :=
  ∀ s t : State, step s = .next t → t.out ≠ s.out →
    s.mem.read s.pc = 0x47#8 ∧ t.failed = false ∧
    ∃ r : RegIx, r.val = (s.mem.read (s.pc + 1)).toNat ∧ t.out = s.out ++ [s.reg r]

/-- R44: only PUSH and CALL write memory, each one cell, the one below the old SP. -/
def Obligations.OnlyPushAndCallWriteMemory : Prop :=
  ∀ (s t : State) (a : Nat), step s = .next t → t.failed = false → t.mem.read a ≠ s.mem.read a →
    s.mem.read s.pc ∈ [0x45#8, 0x50#8] ∧ s.sp.toNat = a + 1

/-- From a pc within memory, the only pc above 255 that a step reaches is 256: the formats without an advance are the
one-byte ones. (A consequence of R78 to R80, inside R79's bound of 258. That a raising step leaves the pc in place is
the model's reading, log 3; the unwrapped advance is D4, log 11.) -/
def Obligations.StepLeavesPcAtMost256 : Prop :=
  ∀ s t : State, s.pc ≤ 256 → step s = .next t → t.pc ≤ 256

/-- R53: a byte a PUSH stores where the next opcode lies is the opcode the next step reads. -/
def Obligations.StoredByteIsFetchedNext : Prop :=
  ∀ (s : State) (a : Byte) (r : RegIx), s.at [0x45#8, a] → a.toNat = r.val → r ≠ 7 → s.sp.toNat = s.pc + 3 →
    ∃ t, step s = .next t ∧ t.mem.read t.pc = s.reg r ∧
      (s.reg r = 0x01#8 → ∃ u, step t = .next u ∧ u.status = .halted ∧ u.pc = s.pc + 2) ∧
      (s.reg r ∉ opcodeMap.values → Raises (step t) t .unknownInstruction (s.reg r).toNat)

/-! ### The stack -/

/-- R120: a PUSH and then a POP of one register, R7 too, restores every register; the byte stays below SP. -/
def Obligations.PushThenPopRestores : Prop :=
  ∀ (s t u : State) (a : Byte), s.failed = false →
    exec (.push a) s = .next t → t.failed = false → exec (.pop a) t = .next u →
    u.failed = false ∧ (∀ r : RegIx, u.reg r = s.reg r) ∧ MemKeptBut [s.sp.toNat - 1] s u ∧ u.pc = s.pc + 4 ∧
    u.mem.read (s.sp.toNat - 1) = t.mem.read t.sp.toNat

/-- R120: last in, first out. Any list of registers other than SP, as long as SP allows, is pushed downwards from SP,
and popping it in reverse order restores every register. -/
def Obligations.StackIsLastInFirstOut : Prop :=
  ∀ (rs : List RegIx) (s : State), s.status = .running → (∀ r ∈ rs, r ≠ 7) → rs.length ≤ s.sp.toNat →
    ∃ t u, execAll (rs.map pushOf) s = .next t ∧ t.sp.toNat = s.sp.toNat - rs.length ∧
      (∀ (k : Nat) (h : k < rs.length), t.mem.read (s.sp.toNat - (k + 1)) = s.reg rs[k]) ∧
      (∀ a : Nat, a < s.sp.toNat - rs.length ∨ s.sp.toNat ≤ a → t.mem.read a = s.mem.read a) ∧
      execAll (rs.reverse.map popOf) t = .next u ∧ u.status = .running ∧ ∀ r : RegIx, u.reg r = s.reg r

/-- R120: exactly SP PUSHes succeed; the next raises -1. From the constructed SP that is 244. -/
def Obligations.PushesFillDownToAddressZero : Prop :=
  ∀ (rs : List RegIx) (r : RegIx) (s : State), s.status = .running → (∀ q ∈ rs, q ≠ 7) →
    rs.length = s.sp.toNat →
    ∃ t, execAll (rs.map pushOf) s = .next t ∧ t.status = .running ∧ t.sp = 0#8 ∧ t.out = s.out ∧
      Raises (exec (pushOf r) t) t .outOfRangeAddress (-1)

/-- R132, S4: CALL and then RET returns to the byte after the CALL and restores SP, for any subroutine address whose
byte, after the push, is RET. -/
def Obligations.CallThenRetReturns : Prop :=
  ∀ (s t : State) (a : Byte), s.at [0x50#8, a] → step s = .next t → t.failed = false →
    t.mem.read t.pc = 0x11#8 →
    ∃ u, step t = .next u ∧ u.status = .running ∧ u.pc = s.pc + 2 ∧ ∀ r : RegIx, u.reg r = s.reg r

/-! ### The host's operations and the run -/

/-- R168: bytes go to consecutive cells and nothing else changes; an address or a value outside 0 to 255 refuses. -/
def Obligations.LoadBytesFillsConsecutiveCells : Prop :=
  ∀ (vs : List Int) (start : Int) (s : State),
    (0 ≤ start → start + vs.length ≤ 256 → (∀ v ∈ vs, 0 ≤ v ∧ v ≤ 255) →
      ∃ t, loadBytes vs start s = .ok t ∧
        (∀ (k : Nat) (h : k < vs.length), ((t.mem.read (start.toNat + k)).toNat : Int) = vs[k]) ∧
        (∀ a : Nat, (a : Int) < start ∨ start + vs.length ≤ a → t.mem.read a = s.mem.read a) ∧
        t.regs = s.regs ∧ t.pc = s.pc ∧ t.status = s.status ∧ t.out = s.out) ∧
    ((∃ (k : Nat) (h : k < vs.length), start + k < 0 ∨ 255 < start + k ∨ vs[k] < 0 ∨ 255 < vs[k]) →
      loadBytes vs start s = .error .outOfRangeAddress)

/-- R166, R169: after `construct()` and `load_bytes` of an image at 0, the first step runs the image's first
instruction. -/
def Obligations.LoadedImageRunsFromAddressZero : Prop :=
  ∀ (i : Instr) (rest : List Byte) (s : State),
    loadBytes ((encode i ++ rest).map fun b => (b.toNat : Int)) 0 construct = .ok s → step s = exec i s

/-- The model's own interface (log 4): a table word placed for the fetch is the instruction the next step runs. -/
def Obligations.PlacedWordRunsNext : Prop :=
  ∀ (s : State) (nbits w : Nat) (i : Instr), s.pc ≤ 253 → decodeTableWord nbits w = some i →
    step (s.withFetchWord nbits w) = exec i (s.withFetchWord nbits w)

/-- R83, R84, R177: a run returns at most one result, and it returns none exactly when it is infinite. -/
def Obligations.RunEndsInOneWayOrNever : Prop :=
  ∀ s : State, (∀ r r' : RunResult, RunReturns s r → RunReturns s r' → r = r') ∧
    (RunsForever s ↔ ∀ r : RunResult, ¬ RunReturns s r)

/-- R83, R85, R170, R147: a run of an engine whose status is terminal executes nothing and returns exactly what the
status says: Halted (a second run: D9), or, where the status is Error, its record with the same kind, pc and detail
(D13); both log 11. -/
def Obligations.HaltedEngineStaysHalted : Prop :=
  ∀ s : State,
    (s.status = .halted → RunReturns s .halted ∧ ∀ n, runSteps n s = s) ∧
    (∀ (k : ErrorKind) (p : Nat) (d : Int), s.status = .error k p d →
      RunReturns s (.error k p d) ∧ ∀ n, runSteps n s = s)

/-- R83, R147: a run goes on from the state a step leaves, and returns the status that step reached where it is
terminal: Halted, or the error record, whose pc is the pc of the step's instruction (D13, log 11). -/
def Obligations.RunReturnsTheStatusReached : Prop :=
  ∀ s t : State, step s = .next t →
    (∀ r : RunResult, RunReturns s r ↔ RunReturns t r) ∧
    (t.status = .halted → RunReturns s .halted) ∧
    (∀ (k : ErrorKind) (p : Nat) (d : Int), t.status = .error k p d → p = s.pc ∧ RunReturns s (.error k p d))

/-- R153, R46: along a run the output only grows: what was emitted stays, an error at the end included. -/
def Obligations.OutputOnlyGrows : Prop :=
  ∀ (n : Nat) (s : State), s.out <+: (runSteps n s).out

/-! ### Assembler text -/

/-- R65, R66: the text of an instruction is read back as that instruction; an instruction has a text exactly when it
is well formed; and whatever text is read as an instruction is one whose registers are R0 to R7. -/
def Obligations.AssemblerReadsWhatItWrites : Prop :=
  (∀ i : Instr, (∀ cs, Asm.text i = some cs → Asm.parse cs = some i) ∧ ((Asm.text i).isSome ↔ i.wellFormed)) ∧
  ∀ (cs : List Char) (i : Instr), Asm.parse cs = some i → i.wellFormed

/-- R65, R67: a program text gives the bytes of its instructions in order, whichever of the two separators stands
between them (the spaces after a separator are log 6), and the bytes of each form are those of R67 (D1, log 2). -/
def Obligations.ProgramTextGivesItsBytes : Prop :=
  (∀ (is : List (Instr × Char × Nat)) (last : Instr),
    (∀ p ∈ is, p.1.wellFormed ∧ (p.2.1 = '\n' ∨ p.2.1 = ';')) → last.wellFormed →
    Asm.assemble (Asm.listing is last) = some ((is.map (·.1) ++ [last]).flatMap encode)) ∧
  ∀ r q v : Byte,
    encode (.ldi r v) = [0x82#8, r, v] ∧ encode (.prn r) = [0x47#8, r] ∧ encode (.mul r q) = [0xA2#8, r, q] ∧
    encode (.add r q) = [0xA0#8, r, q] ∧ encode (.push r) = [0x45#8, r] ∧ encode (.pop r) = [0x46#8, r] ∧
    encode (.call r) = [0x50#8, r] ∧ encode .ret = [0x11#8] ∧ encode .hlt = [0x01#8]

/-- R65: LDI's immediate is read in decimal, in hexadecimal after `0x` (with digits of either case, log 6) and in binary
after `0b`, for every numeral of such digits (leading zeros: log 6): its value is LDI's operand byte where it is at
most 255, and a larger one is no text of a program. -/
def Obligations.ImmediatesAreReadInThreeBases : Prop :=
  ∀ (base : Nat) (mark : List Char), (base, mark) ∈ [(10, []), (16, ['0', 'x']), (2, ['0', 'b'])] →
    ∀ (digit : Nat → Char), (digit = Nat.digitChar ∨ digit = fun d => (Nat.digitChar d).toUpper) →
    ∀ (r : RegIx) (ds : List Nat), ds ≠ [] → (∀ d ∈ ds, d < base) →
      Asm.assemble (['L', 'D', 'I', ' ', 'R', Nat.digitChar r, ','] ++ mark ++ ds.map digit) =
        if Asm.numeralValue base ds ≤ 255 then
          some [0x82#8, BitVec.ofNat 8 r, BitVec.ofNat 8 (Asm.numeralValue base ds)]
        else none
end

