-- ==== Sys2Proof/Laws/Assembler.lean ====
section
/-! SUPPORT. What the operations of the assembler text answer: splitting, trimming, numerals, one written
instruction with no, one or two operands, and a program text piece by piece (R65). -/

namespace Sys2Proof.Machine.Asm

/-! ### Pieces -/

/-- A text without separators is one piece. -/
theorem split_of_forall {sep : Char → Bool} {cs : List Char} (h : ∀ c ∈ cs, sep c = false) : split sep cs = [cs] := by
  induction cs with
  | nil => rfl
  | cons c cs ih =>
    simp only [List.mem_cons, forall_eq_or_imp] at h
    simp [split, h.1, ih h.2]

/-- A separator ends the first piece. -/
theorem split_append {sep : Char → Bool} {cs : List Char} {c : Char} (ds : List Char) (h : ∀ c ∈ cs, sep c = false)
    (hc : sep c = true) : split sep (cs ++ c :: ds) = cs :: split sep ds := by
  induction cs with
  | nil => simp [split, hc]
  | cons d cs ih =>
    simp only [List.mem_cons, forall_eq_or_imp] at h
    simp [split, h.1, ih h.2]

/-- A text that neither begins nor ends with a space. -/
abbrev Tight (cs : List Char) : Prop := cs.head? ≠ some ' ' ∧ cs.getLast? ≠ some ' '

theorem dropWhile_space {cs : List Char} (h : cs.head? ≠ some ' ') : cs.dropWhile (· = ' ') = cs := by
  cases cs with
  | nil => rfl
  | cons c cs => simp_all

theorem trim_of_tight {cs : List Char} (h : Tight cs) : trim cs = cs := by
  have hr : cs.reverse.head? ≠ some ' ' := by rw [List.head?_reverse]; exact h.2
  rw [trim, dropWhile_space h.1, dropWhile_space hr, List.reverse_reverse]

/-- Spaces in front of a text are trimmed away. -/
theorem trim_spaces (n : Nat) (cs : List Char) : trim (List.replicate n ' ' ++ cs) = trim cs := by
  have : (List.replicate n ' ' ++ cs).dropWhile (· = ' ') = cs.dropWhile (· = ' ') := by
    induction n with
    | zero => rfl
    | succ n ih => simp [List.replicate_succ, ih]
  rw [trim, this, trim]

/-! ### Numerals -/

/-- Digits are read as the positional value of their values. -/
theorem digits_map {base : Nat} {digit : Nat → Char} {ds : List Nat}
    (h : ∀ d ∈ ds, digitValue base (digit d) = some d) (acc : Nat) :
    digits base (ds.map digit) acc = some (ds.foldl (fun n d => n * base + d) acc) := by
  induction ds generalizing acc with
  | nil => rfl
  | cons d ds ih =>
    simp only [List.mem_cons, forall_eq_or_imp] at h
    simp [digits, h.1, ih h.2]

/-- A decimal written by `decimal` is read back. -/
theorem immediateOf_decimal (b : Byte) : immediateOf (decimal b) = some b := by
  revert b; decide

/-! ### Written instructions -/

/-- A text without either separator of instructions. -/
abbrev OneLine (cs : List Char) : Prop := '\n' ∉ cs ∧ ';' ∉ cs

/-- A word of a written instruction: not empty, without space, comma or separator of instructions. -/
abbrev IsWord (cs : List Char) : Prop := cs ≠ [] ∧ ' ' ∉ cs ∧ ',' ∉ cs ∧ OneLine cs

theorem IsWord.tight {cs : List Char} (h : IsWord cs) : Tight cs :=
  ⟨fun e => h.2.1 (List.mem_of_mem_head? e), fun e => h.2.1 (List.mem_of_mem_getLast? e)⟩

/-- A text that begins with a word and ends with one is tight. -/
theorem IsWord.append_tight {m v : List Char} (hm : IsWord m) (cs : List Char) (hv : IsWord v) :
    Tight (m ++ cs ++ v) := by
  constructor
  · rw [List.append_assoc, List.head?_append_of_ne_nil _ hm.1]; exact hm.tight.1
  · rw [List.getLast?_append_of_ne_nil _ hv.1]; exact hv.tight.2

theorem IsWord.takeWhile_self {m : List Char} (hm : IsWord m) : m.takeWhile (· ≠ ' ') = m :=
  List.takeWhile_eq_self_iff.mpr fun _ hc => by simpa using ne_of_mem_of_not_mem hc hm.2.1

theorem IsWord.takeWhile_append {m : List Char} (hm : IsWord m) (cs : List Char) :
    (m ++ ' ' :: cs).takeWhile (· ≠ ' ') = m := by
  rw [List.takeWhile_append_of_pos (fun _ hc => by simpa using ne_of_mem_of_not_mem hc hm.2.1)]; simp

theorem IsWord.no_comma {m : List Char} (hm : IsWord m) : ∀ c ∈ m, decide (c = ',') = false :=
  fun _ hc => by simpa using ne_of_mem_of_not_mem hc hm.2.2.1

/-- A mnemonic alone. -/
theorem parse_mnemonic {m : List Char} (hm : IsWord m) : parse m = build m [] := by
  simp only [parse, trim_of_tight hm.tight, hm.takeWhile_self, List.drop_length]
  rfl

/-- A mnemonic and the text of its operands. -/
theorem parse_operands {m rest : List Char} (hm : IsWord m) (hr : rest ≠ []) (ht : Tight rest) :
    parse (m ++ ' ' :: rest) = build m ((split (· = ',') rest).map trim) := by
  have h1 : Tight (m ++ ' ' :: rest) := by
    constructor
    · rw [List.head?_append_of_ne_nil _ hm.1]; exact hm.tight.1
    · rw [List.append_cons, List.getLast?_append_of_ne_nil _ hr]; exact ht.2
  have h2 : trim ((m ++ ' ' :: rest).drop m.length) = rest := by
    rw [List.drop_left]; exact (trim_spaces 1 rest).trans (trim_of_tight ht)
  simp only [parse, trim_of_tight h1, hm.takeWhile_append, h2]

/-- A mnemonic and one operand. -/
theorem parse_one {m u : List Char} (hm : IsWord m) (hu : IsWord u) : parse (m ++ ' ' :: u) = build m [u] := by
  rw [parse_operands hm hu.1 hu.tight, split_of_forall hu.no_comma]
  simp [trim_of_tight hu.tight]

/-- A mnemonic and two operands. -/
theorem parse_two {m u v : List Char} (hm : IsWord m) (hu : IsWord u) (hv : IsWord v) :
    parse (m ++ ' ' :: u ++ ',' :: v) = build m [u, v] := by
  have ht : Tight (u ++ ',' :: v) := by simpa using hu.append_tight [','] hv
  have := parse_operands hm (by simp) ht
  rw [split_append _ hu.no_comma (by simp), split_of_forall hv.no_comma] at this
  simpa [trim_of_tight hu.tight, trim_of_tight hv.tight] using this

/-- The written instruction as a line of a program text. -/
abbrev IsLine (cs : List Char) : Prop := cs ≠ [] ∧ Tight cs ∧ OneLine cs

theorem IsWord.line {m : List Char} (hm : IsWord m) : IsLine m := ⟨hm.1, hm.tight, hm.2.2.2⟩

theorem line_one {m u : List Char} (hm : IsWord m) (hu : IsWord u) : IsLine (m ++ ' ' :: u) :=
  ⟨by simp, by simpa using hm.append_tight [' '] hu, by simp [hm.2.2.2.1, hu.2.2.2.1],
    by simp [hm.2.2.2.2, hu.2.2.2.2]⟩

theorem line_two {m u v : List Char} (hm : IsWord m) (hu : IsWord u) (hv : IsWord v) :
    IsLine (m ++ ' ' :: u ++ ',' :: v) :=
  ⟨by simp, by simpa using hm.append_tight (' ' :: u ++ [',']) hv,
    by simp [hm.2.2.2.1, hu.2.2.2.1, hv.2.2.2.1], by simp [hm.2.2.2.2, hu.2.2.2.2, hv.2.2.2.2]⟩

/-! ### Program texts -/

/-- The one piece of a line, spaces before it trimmed away. -/
theorem piece {cs : List Char} (ht : Tight cs) (hs : OneLine cs) (n : Nat) :
    (∀ c ∈ List.replicate n ' ' ++ cs, (decide (c = '\n') || decide (c = ';')) = false) ∧
      trim (List.replicate n ' ' ++ cs) = cs := by
  refine ⟨fun c hc => ?_, (trim_spaces n cs).trans (trim_of_tight ht)⟩
  rcases List.mem_append.mp hc with hc | hc
  · rw [List.eq_of_mem_replicate hc]; rfl
  · simp [ne_of_mem_of_not_mem hc hs.1, ne_of_mem_of_not_mem hc hs.2]

/-- An instruction's text that a separator follows is assembled before the rest. -/
theorem assemble_cons {cs : List Char} {c : Char} {i : Instr} (rest : List Char) (hl : IsLine cs)
    (hc : c = '\n' ∨ c = ';') (n : Nat) (hp : parse cs = some i) :
    assemble (List.replicate n ' ' ++ cs ++ c :: rest) = (assemble rest).map (encode i ++ ·) := by
  have ⟨h1, h2⟩ := piece hl.2.1 hl.2.2 n
  simp only [assemble]
  rw [split_append _ h1 (by simpa using hc), List.map_cons, h2, List.filter_cons_of_pos (by simpa using hl.1),
    List.mapM_cons, hp]
  cases List.mapM parse _ <;> simp

/-- An instruction's text alone. -/
theorem assemble_one {cs : List Char} (hl : IsLine cs) (n : Nat) :
    assemble (List.replicate n ' ' ++ cs) = (parse cs).map encode := by
  have ⟨h1, h2⟩ := piece hl.2.1 hl.2.2 n
  simp only [assemble]
  rw [split_of_forall h1, List.map_cons, h2, List.filter_cons_of_pos (by simpa using hl.1)]
  cases hp : parse cs <;> simp [hp]

end Sys2Proof.Machine.Asm
end

