-- ==== Sys2Proof/Laws/Decode.lean ====
section
/-! SUPPORT. What dispatch and the decoder answer: the nine opcodes, and the reads a declared operand count makes. -/

namespace Sys2Proof

/-- What dispatch answers for each byte (R59, R63). -/
theorem lookup_cases (op : Byte) :
    (op = 0x82#8 ∧ lookup opcodeMap op = some fun a b => .ldi a b) ∨
    (op = 0x47#8 ∧ lookup opcodeMap op = some fun a _ => .prn a) ∨
    (op = 0xA2#8 ∧ lookup opcodeMap op = some fun a b => .mul a b) ∨
    (op = 0xA0#8 ∧ lookup opcodeMap op = some fun a b => .add a b) ∨
    (op = 0x45#8 ∧ lookup opcodeMap op = some fun a _ => .push a) ∨
    (op = 0x46#8 ∧ lookup opcodeMap op = some fun a _ => .pop a) ∨
    (op = 0x50#8 ∧ lookup opcodeMap op = some fun a _ => .call a) ∨
    (op = 0x11#8 ∧ lookup opcodeMap op = some fun _ _ => .ret) ∨
    (op = 0x01#8 ∧ lookup opcodeMap op = some fun _ _ => .hlt) ∨
    (op ∉ opcodeMap.values ∧ lookup opcodeMap op = none) := by
  by_cases h : op ∈ opcodeMap.values
  · simp only [Config.OpcodeMap.values, opcodeMap, List.mem_cons, List.not_mem_nil, or_false] at h
    rcases h with rfl | rfl | rfl | rfl | rfl | rfl | rfl | rfl | rfl
    · exact .inl ⟨rfl, rfl⟩
    · exact .inr (.inl ⟨rfl, rfl⟩)
    · exact .inr (.inr (.inl ⟨rfl, rfl⟩))
    · exact .inr (.inr (.inr (.inl ⟨rfl, rfl⟩)))
    · exact .inr (.inr (.inr (.inr (.inl ⟨rfl, rfl⟩))))
    · exact .inr (.inr (.inr (.inr (.inr (.inl ⟨rfl, rfl⟩)))))
    · exact .inr (.inr (.inr (.inr (.inr (.inr (.inl ⟨rfl, rfl⟩))))))
    · exact .inr (.inr (.inr (.inr (.inr (.inr (.inr (.inl ⟨rfl, rfl⟩)))))))
    · exact .inr (.inr (.inr (.inr (.inr (.inr (.inr (.inr (.inl ⟨rfl, rfl⟩))))))))
  · refine .inr (.inr (.inr (.inr (.inr (.inr (.inr (.inr (.inr ⟨h, ?_⟩))))))))
    simp only [Config.OpcodeMap.values, List.mem_cons, List.not_mem_nil, or_false, not_or] at h
    simp [lookup, h]

theorem operandCount_eq (op : Byte) : operandCount op = (op.extractLsb 7 6).toNat := by
  revert op; decide

/-- How many operands a dispatched instruction declares, and that it ignores the bytes it does not declare (R56,
R58). -/
theorem lookup_build {op : Byte} {build : Byte → Byte → Instr} (h : lookup opcodeMap op = some build) :
    (operandCount op = 0 ∧ ∀ a b a' b', build a b = build a' b') ∨
      (operandCount op = 1 ∧ ∀ a b b', build a b = build a b') ∨ operandCount op = 2 := by
  rcases lookup_cases op with ⟨ho, hb⟩ | ⟨ho, hb⟩ | ⟨ho, hb⟩ | ⟨ho, hb⟩ | ⟨ho, hb⟩ | ⟨ho, hb⟩ | ⟨ho, hb⟩ |
    ⟨ho, hb⟩ | ⟨ho, hb⟩ | ⟨-, hb⟩ <;> rw [h] at hb
  · exact .inr (.inr (by rw [ho]; rfl))
  · cases hb; exact .inr (.inl ⟨by rw [ho]; rfl, fun _ _ _ => rfl⟩)
  · exact .inr (.inr (by rw [ho]; rfl))
  · exact .inr (.inr (by rw [ho]; rfl))
  · cases hb; exact .inr (.inl ⟨by rw [ho]; rfl, fun _ _ _ => rfl⟩)
  · cases hb; exact .inr (.inl ⟨by rw [ho]; rfl, fun _ _ _ => rfl⟩)
  · cases hb; exact .inr (.inl ⟨by rw [ho]; rfl, fun _ _ _ => rfl⟩)
  · cases hb; exact .inl ⟨by rw [ho]; rfl, fun _ _ _ _ => rfl⟩
  · cases hb; exact .inl ⟨by rw [ho]; rfl, fun _ _ _ _ => rfl⟩
  · cases hb

section
variable {ε : Type} {m : Config.OpcodeMap} {read : Nat → Except ε Byte} {unknown : Byte → ε} {op : Byte}

/-- Decoding where the first byte cannot be read. -/
theorem decodeFrom_missing {e : ε} (h : read 0 = .error e) : decodeFrom m read unknown = .error e := by
  simp only [decodeFrom, h, bind, Except.bind]

/-- Decoding where the first byte is no opcode: no operand is read. -/
theorem decodeFrom_unknown (h : read 0 = .ok op) (hl : lookup m op = none) :
    decodeFrom m read unknown = .error (unknown op) := by
  simp only [decodeFrom, h, hl, bind, Except.bind]

/-- Decoding an opcode: exactly the operands it declares are read, A before B. -/
theorem decodeFrom_known {build : Byte → Byte → Instr} (h : read 0 = .ok op) (hl : lookup m op = some build) :
    decodeFrom m read unknown =
      (if 1 ≤ operandCount op then read 1 else .ok 0#8).bind fun a =>
        (if operandCount op = 2 then read 2 else .ok 0#8).bind fun b => .ok (build a b) := by
  by_cases h1 : 1 ≤ operandCount op <;> by_cases h2 : operandCount op = 2 <;>
    simp [decodeFrom, h, hl, h1, h2, bind, Except.bind]

end

end Sys2Proof
end

