-- ==== Sys2Proof/Laws/Memory.lean ====
section
/-! SUPPORT. The laws of memory: reading what was written, leaving the rest, and the canonical form. -/

namespace Sys2Proof.Machine

@[simp] theorem Memory.read_nil (a : Nat) : Memory.read [] a = Memory.unlisted := rfl

/-- An address no cell has reads as an unlisted address. -/
theorem Memory.read_of_not_listed {m : Memory} {a : Nat} (h : ∀ c ∈ m, c.1 ≠ a) : m.read a = Memory.unlisted := by
  induction m with
  | nil => rfl
  | cons c rest ih =>
    simp only [Memory.read, if_neg (h c (by simp))]
    exact ih fun d hd => h d (by simp [hd])

theorem Memory.read_erase (m : Memory) (a x : Nat) :
    (m.erase a).read x = if x = a then Memory.unlisted else m.read x := by
  induction m with
  | nil => simp [Memory.erase]
  | cons c rest ih =>
    obtain ⟨b, w⟩ := c
    by_cases hb : b = a
    · have he : Memory.erase ((b, w) :: rest) a = Memory.erase rest a := by simp [Memory.erase, hb]
      rw [he, ih]
      split
      · rfl
      · next hx => simp [Memory.read, hb, Ne.symm hx]
    · have he : Memory.erase ((b, w) :: rest) a = (b, w) :: Memory.erase rest a := by simp [Memory.erase, hb]
      rw [he]
      simp only [Memory.read, ih]
      by_cases hx : x = a
      · subst hx; simp [hb]
      · simp [hx]

theorem Memory.read_insert {m : Memory} {a : Nat} (h : ∀ c ∈ m, c.1 ≠ a) (v : Byte) (x : Nat) :
    (Memory.insert a v m).read x = if x = a then v else m.read x := by
  induction m with
  | nil => simp [Memory.insert, Memory.read, eq_comm]
  | cons c rest ih =>
    have hc := h c (by simp)
    simp only [Memory.insert]
    split
    · simp only [Memory.read, eq_comm]
    · simp only [Memory.read, ih fun d hd => h d (by simp [hd])]
      by_cases hx : x = a
      · subst hx; simp [hc]
      · simp [hx]

theorem Memory.not_listed_erase (m : Memory) (a : Nat) : ∀ c ∈ m.erase a, c.1 ≠ a := by
  simp [Memory.erase]

/-- A read after a write: the cell written holds the value, every other cell is as before. It holds of every list of
cells, canonical or not. -/
theorem Memory.read_write (m : Memory) (a : Nat) (v : Byte) (x : Nat) :
    (m.write a v).read x = if x = a then v else m.read x := by
  unfold Memory.write
  split
  · next h => rw [Memory.read_erase, h]
  · rw [Memory.read_insert (Memory.not_listed_erase m a), Memory.read_erase]
    split <;> rfl

@[simp] theorem Memory.read_write_same (m : Memory) (a : Nat) (v : Byte) : (m.write a v).read a = v := by
  simp [Memory.read_write]

theorem Memory.read_write_other (m : Memory) {a x : Nat} (h : x ≠ a) (v : Byte) :
    (m.write a v).read x = m.read x := by
  simp [Memory.read_write, h]

theorem Memory.erase_wf {m : Memory} (hm : m.wf) (a : Nat) : (m.erase a).wf :=
  ⟨hm.1.filter _, fun c hc => hm.2 c (List.mem_filter.1 hc).1⟩

theorem Memory.mem_insert {m : Memory} {a : Nat} {v : Byte} {c : Host.Cell} (h : c ∈ Memory.insert a v m) :
    c = (a, v) ∨ c ∈ m := by
  induction m with
  | nil => simpa [Memory.insert] using h
  | cons d rest ih =>
    simp only [Memory.insert] at h
    split at h
    · simpa using h
    · rcases List.mem_cons.1 h with rfl | h
      · simp
      · rcases ih h with h | h <;> simp [h]

theorem Memory.insert_wf {m : Memory} (hm : m.wf) {a : Nat} {v : Byte} (ha : a < Config.memSize)
    (hv : v ≠ Memory.unlisted) (h : ∀ c ∈ m, c.1 ≠ a) : (Memory.insert a v m).wf := by
  refine ⟨?_, fun c hc => ?_⟩
  · have hp := hm.1
    clear hm
    induction m with
    | nil => simp [Memory.insert]
    | cons c rest ih =>
      obtain ⟨hc, hrest⟩ := List.pairwise_cons.1 hp
      simp only [Memory.insert]
      split
      · next hlt =>
        refine List.pairwise_cons.2 ⟨fun d hd => ?_, hp⟩
        rcases List.mem_cons.1 hd with rfl | hd
        · exact hlt
        · exact hlt.trans (hc d hd)
      · next hge =>
        refine List.pairwise_cons.2 ⟨fun d hd => ?_, ih (fun e he => h e (by simp [he])) hrest⟩
        rcases Memory.mem_insert hd with rfl | hd
        · exact lt_of_le_of_ne (Nat.not_lt.1 hge) (h c (by simp))
        · exact hc d hd
  · rcases Memory.mem_insert hc with rfl | hc
    · exact ⟨ha, hv⟩
    · exact hm.2 c hc

/-- A write inside the 256 cells keeps the canonical form. -/
theorem Memory.write_wf {m : Memory} (hm : m.wf) {a : Nat} (ha : a < Config.memSize) (v : Byte) :
    (m.write a v).wf := by
  unfold Memory.write
  split
  · exact Memory.erase_wf hm a
  · next hv => exact Memory.insert_wf (Memory.erase_wf hm a) ha hv (Memory.not_listed_erase m a)

/-- The memory of a function is canonical. -/
theorem Memory.ofFun_wf (f : Nat → Byte) : (Memory.ofFun f).wf := by
  constructor
  · unfold Memory.ofFun
    rw [List.pairwise_filterMap]
    refine List.pairwise_lt_range.imp fun {a b} hab c hc d hd => ?_
    split at hc <;> split at hd <;> simp_all
    rw [← hc, ← hd]; exact hab
  · intro c hc
    simp only [Memory.ofFun, List.mem_filterMap, List.mem_range] at hc
    obtain ⟨a, ha, hc⟩ := hc
    split at hc
    · simp at hc
    · next h => cases hc; exact ⟨ha, h⟩

/-- Placing bytes keeps the canonical form. -/
theorem placeBytes_wf (bs : List Byte) (a : Nat) (m : Memory) (hm : m.wf) : (placeBytes bs a m).wf := by
  induction bs generalizing a m with
  | nil => exact hm
  | cons b bs ih =>
    simp only [placeBytes]
    split
    · next h => exact ih _ _ (Memory.write_wf hm h b)
    · exact hm

end Sys2Proof.Machine
end

