-- ==== Sys2Proof/Laws/State.lean ====
section
/-! SUPPORT. What each update of the state leaves in each field: one lemma per field per update. -/

namespace Sys2Proof.Machine

section
variable (s : State) (i : RegIx) (v : Int) (b : Byte) (t : Nat) (r : Raise)

@[simp] theorem State.mem_writeReg : (s.writeReg i v).mem = s.mem := rfl
@[simp] theorem State.pc_writeReg : (s.writeReg i v).pc = s.pc := rfl
@[simp] theorem State.status_writeReg : (s.writeReg i v).status = s.status := rfl
@[simp] theorem State.out_writeReg : (s.writeReg i v).out = s.out := rfl
@[simp] theorem State.draws_writeReg : (s.writeReg i v).draws = s.draws := rfl

@[simp] theorem State.mem_setPc : (s.setPc t).mem = s.mem := rfl
@[simp] theorem State.regs_setPc : (s.setPc t).regs = s.regs := rfl
@[simp] theorem State.pc_setPc : (s.setPc t).pc = t := rfl
@[simp] theorem State.status_setPc : (s.setPc t).status = s.status := rfl
@[simp] theorem State.out_setPc : (s.setPc t).out = s.out := rfl
@[simp] theorem State.draws_setPc : (s.setPc t).draws = s.draws := rfl
@[simp] theorem State.reg_setPc : (s.setPc t).reg i = s.reg i := rfl
@[simp] theorem State.sp_setPc : (s.setPc t).sp = s.sp := rfl

@[simp] theorem State.mem_emit : (s.emit b).mem = s.mem := rfl
@[simp] theorem State.regs_emit : (s.emit b).regs = s.regs := rfl
@[simp] theorem State.pc_emit : (s.emit b).pc = s.pc := rfl
@[simp] theorem State.status_emit : (s.emit b).status = s.status := rfl
@[simp] theorem State.out_emit : (s.emit b).out = s.out ++ [b] := rfl
@[simp] theorem State.draws_emit : (s.emit b).draws = s.draws := rfl
@[simp] theorem State.reg_emit : (s.emit b).reg i = s.reg i := rfl
@[simp] theorem State.sp_emit : (s.emit b).sp = s.sp := rfl

@[simp] theorem State.reg_status (q : Status) : ({ s with status := q } : State).reg i = s.reg i := rfl
@[simp] theorem State.sp_status (q : Status) : ({ s with status := q } : State).sp = s.sp := rfl
@[simp] theorem State.reg_mem (m : Memory) : ({ s with mem := m } : State).reg i = s.reg i := rfl
@[simp] theorem State.sp_mem (m : Memory) : ({ s with mem := m } : State).sp = s.sp := rfl

@[simp] theorem raise_pc : (raise r s).pc = s.pc := rfl
@[simp] theorem raise_status : (raise r s).status = .error r.kind s.pc r.detail := rfl
@[simp] theorem raise_out : (raise r s).out = s.out := rfl
@[simp] theorem raise_draws : (raise r s).draws = s.draws + 1 := rfl

theorem State.sp_eq_reg : s.sp = s.reg 7 := rfl

/-- The register written holds the value mod 256 (R10). -/
@[simp] theorem State.reg_writeReg_same : (s.writeReg i v).reg i = BitVec.ofInt 8 v := by
  simp [State.reg, State.writeReg]

/-- Every other register is as before. -/
theorem State.reg_writeReg_other {j : RegIx} (h : j ≠ i) : (s.writeReg i v).reg j = s.reg j := by
  have h' : i.val ≠ j.val := fun e => h (Fin.ext e.symm)
  simp [State.reg, State.writeReg, h']

theorem State.reg_writeReg (j : RegIx) :
    (s.writeReg i v).reg j = if j = i then BitVec.ofInt 8 v else s.reg j := by
  split
  · next h => rw [h, reg_writeReg_same]
  · next h => exact reg_writeReg_other s i v h

theorem State.sp_writeReg : (s.writeReg i v).sp = if i = 7 then BitVec.ofInt 8 v else s.sp := by
  rw [sp_eq_reg, reg_writeReg, sp_eq_reg]
  simp only [eq_comm]

/-- Two states with the same registers by number hold the same register file. -/
theorem State.regs_ext {s t : State} (h : ∀ j, t.reg j = s.reg j) : t.regs = s.regs := by
  apply Vector.ext
  intro k hk
  exact h ⟨k, hk⟩

end

/-- Bringing an unsigned byte value to 8 bits changes nothing. -/
@[simp] theorem ofInt_toNat (b : Byte) : BitVec.ofInt 8 (b.toNat : Int) = b := by
  simp

end Sys2Proof.Machine
end

