-- ==== Sys2Proof/Laws/Ops.lean ====
section
/-! SUPPORT. One lemma per shared operation that says everything it can answer. -/

namespace Sys2Proof.Machine

theorem regIndex_ok {b : Byte} {r : RegIx} (h : b.toNat = r.val) : regIndex b = .ok r := by
  simp [regIndex, h]

theorem regIndex_error {b : Byte} (h : 7 < b.toNat) : regIndex b = .error ⟨.outOfRangeAddress, b.toNat⟩ := by
  simp [regIndex, outOfRange, Nat.not_lt.2 h]

/-- A register operand names a register, or raises with itself (R12). -/
theorem regIndex_cases (b : Byte) :
    (∃ r : RegIx, b.toNat = r.val ∧ regIndex b = .ok r) ∨
      (7 < b.toNat ∧ regIndex b = .error ⟨.outOfRangeAddress, b.toNat⟩) := by
  by_cases h : b.toNat < 8
  · exact .inl ⟨⟨b.toNat, h⟩, rfl, regIndex_ok rfl⟩
  · exact .inr ⟨by omega, regIndex_error (by omega)⟩

theorem memRead_ok (s : State) {a : Nat} (h : a ≤ 255) : memRead a s = .ok (s.mem.read a) := by
  have : 0 ≤ (a : Int) ∧ (a : Int) < Config.memSize := by simp only [Config.memSize]; omega
  rw [memRead, if_pos this, Int.toNat_natCast]

theorem memRead_error (s : State) {a : Int} (h : a < 0 ∨ 255 < a) : memRead a s = .error ⟨.outOfRangeAddress, a⟩ := by
  have : ¬ (0 ≤ a ∧ a < Config.memSize) := by simp only [Config.memSize]; omega
  simp only [memRead, this, if_false, outOfRange]

/-- An address held in a byte always exists. -/
@[simp] theorem memRead_byte (s : State) (b : Byte) : memRead b.toNat s = .ok (s.mem.read b.toNat) :=
  memRead_ok s (by have := b.isLt; omega)

theorem memWrite_ok (s : State) {a : Nat} (h : a ≤ 255) (v : Byte) :
    memWrite a v s = .ok { s with mem := s.mem.write a v } := by
  have : 0 ≤ (a : Int) ∧ (a : Int) < Config.memSize := by simp only [Config.memSize]; omega
  rw [memWrite, if_pos this, Int.toNat_natCast]

theorem memWrite_error (s : State) {a : Int} (h : a < 0 ∨ 255 < a) (v : Byte) :
    memWrite a v s = .error ⟨.outOfRangeAddress, a⟩ := by
  have : ¬ (0 ≤ a ∧ a < Config.memSize) := by simp only [Config.memSize]; omega
  simp only [memWrite, this, if_false, outOfRange]

@[simp] theorem memWrite_byte (s : State) (b v : Byte) :
    memWrite b.toNat v s = .ok { s with mem := s.mem.write b.toNat v } :=
  memWrite_ok s (by have := b.isLt; omega) v

/-- `SPDec` (R116): SP minus 1, or the error at 0. -/
theorem spDec_cases (s : State) :
    (0 < s.sp.toNat ∧ spDec s = .ok (s.writeReg 7 (s.sp.toNat - 1 : Nat))) ∨
      (s.sp.toNat = 0 ∧ spDec s = .error ⟨.outOfRangeAddress, -1⟩) := by
  by_cases h : s.sp.toNat = 0
  · exact .inr ⟨h, by simp [spDec, outOfRange, h]⟩
  · have h1 : ¬ ((s.sp.toNat : Int) - 1 < 0) := by omega
    have h2 : ((s.sp.toNat - 1 : Nat) : Int) = s.sp.toNat - 1 := by omega
    exact .inl ⟨by omega, by simp only [spDec, h1, if_false, h2]⟩

/-- `SPInc` (R116): SP plus 1, or the error at 255. -/
theorem spInc_cases (s : State) :
    (s.sp.toNat < 255 ∧ spInc s = .ok (s.writeReg 7 (s.sp.toNat + 1 : Nat))) ∨
      (s.sp.toNat = 255 ∧ spInc s = .error ⟨.outOfRangeAddress, 256⟩) := by
  have hb := s.sp.isLt
  by_cases h : s.sp.toNat = 255
  · exact .inr ⟨h, by simp [spInc, outOfRange, h]⟩
  · have h1 : ¬ ((s.sp.toNat : Int) + 1 > 255) := by omega
    have h2 : ((s.sp.toNat + 1 : Nat) : Int) = s.sp.toNat + 1 := by omega
    exact .inl ⟨by omega, by simp only [spInc, h1, if_false, h2]⟩

/-- CALL's return address (R131): a byte, or the error where it does not fit one. -/
theorem returnAddress_cases (s : State) :
    (s.pc ≤ 253 ∧ returnAddress s = .ok (BitVec.ofNat 8 (s.pc + 2))) ∨
      (253 < s.pc ∧ returnAddress s = .error ⟨.outOfRangeAddress, (s.pc + 2 : Nat)⟩) := by
  by_cases h : s.pc ≤ 253
  · have h1 : ¬ ((s.pc : Int) + 2 > 255) := by omega
    refine .inl ⟨h, ?_⟩
    simp only [returnAddress, h1, if_false]
    exact congrArg Except.ok (BitVec.ofInt_natCast 8 (s.pc + 2))
  · have h1 : (s.pc : Int) + 2 > 255 := by omega
    exact .inr ⟨by omega, by simp [returnAddress, outOfRange, h1]⟩

/-- A number that fits a byte is what the byte holds. -/
theorem toNat_ofNat_of_le {n : Nat} (h : n ≤ 255) : (BitVec.ofNat 8 n).toNat = n := by
  rw [BitVec.toNat_ofNat]; omega

/-- A register write of a number that fits leaves that number. -/
theorem sp_writeReg_seven (s : State) (n : Nat) : (s.writeReg 7 (n : Int)).sp = BitVec.ofNat 8 n := by
  simp [State.sp_eq_reg]

@[simp] theorem conclude_error (len : Nat) (s : State) (r : Raise) :
    conclude len s (.error r) = .next (raise r s) := rfl
@[simp] theorem conclude_advance (len : Nat) (s t : State) :
    conclude len s (.ok (.advance t)) = .next (t.setPc (s.pc + len)) := rfl
@[simp] theorem conclude_explicit (len : Nat) (s t : State) : conclude len s (.ok (.explicit t)) = .next t := rfl
@[simp] theorem conclude_halt (len : Nat) (s t : State) :
    conclude len s (.ok (.halt t)) = .next { t with status := .halted } := rfl

/-- However a handler ends, the engine answers a next state (R80). -/
theorem conclude_next (len : Nat) (s : State) (h : Checked Ending) : ∃ t, conclude len s h = .next t := by
  rcases h with r | (t | t | t) <;> exact ⟨_, rfl⟩

end Sys2Proof.Machine
end

