-- ==== Sys2Proof/Laws/Exec.lean ====
section
/-! SUPPORT. One lemma per instruction that says everything its meaning can do: the next state where it completes, and
each error with its condition. -/

namespace Sys2Proof.Machine

theorem execLdi_cases (a b : Byte) (s : State) :
    (∃ r : RegIx, a.toNat = r.val ∧ execLdi a b s = .next ((s.writeReg r b.toNat).setPc (s.pc + 3))) ∨
      (7 < a.toNat ∧ execLdi a b s = .next (raise ⟨.outOfRangeAddress, a.toNat⟩ s)) := by
  obtain ⟨r, hr, h⟩ | ⟨hr, h⟩ := regIndex_cases a
  · exact .inl ⟨r, hr, by simp [execLdi, h, bind, Except.bind, immediate]⟩
  · exact .inr ⟨hr, by simp [execLdi, h, bind, Except.bind]⟩

theorem execPrn_cases (a : Byte) (s : State) :
    (∃ r : RegIx, a.toNat = r.val ∧ execPrn a s = .next ((s.emit (s.reg r)).setPc (s.pc + 2))) ∨
      (7 < a.toNat ∧ execPrn a s = .next (raise ⟨.outOfRangeAddress, a.toNat⟩ s)) := by
  obtain ⟨r, hr, h⟩ | ⟨hr, h⟩ := regIndex_cases a
  · exact .inl ⟨r, hr, by simp [execPrn, h, bind, Except.bind]⟩
  · exact .inr ⟨hr, by simp [execPrn, h, bind, Except.bind]⟩

/-- What MUL and ADD share (R104, R105). -/
theorem aluInstr_cases (op : AluOp) (a b : Byte) (s : State) :
    (∃ r q : RegIx, a.toNat = r.val ∧ b.toNat = q.val ∧ aluInstr op a b s = .ok (.advance (aluApply op r q s))) ∨
      (7 < a.toNat ∧ aluInstr op a b s = .error ⟨.outOfRangeAddress, a.toNat⟩) ∨
      (a.toNat ≤ 7 ∧ 7 < b.toNat ∧ aluInstr op a b s = .error ⟨.outOfRangeAddress, b.toNat⟩) := by
  obtain ⟨r, hr, h⟩ | ⟨hr, h⟩ := regIndex_cases a
  · obtain ⟨q, hq, h'⟩ | ⟨hq, h'⟩ := regIndex_cases b
    · exact .inl ⟨r, q, hr, hq, by simp [aluInstr, h, h', bind, Except.bind]⟩
    · exact .inr (.inr ⟨by omega, hq, by simp [aluInstr, h, h', bind, Except.bind]⟩)
  · exact .inr (.inl ⟨hr, by simp [aluInstr, h, bind, Except.bind]⟩)

theorem execMul_cases (a b : Byte) (s : State) :
    (∃ r q : RegIx, a.toNat = r.val ∧ b.toNat = q.val ∧
        execMul a b s = .next ((aluApply .multiply r q s).setPc (s.pc + 3))) ∨
      (7 < a.toNat ∧ execMul a b s = .next (raise ⟨.outOfRangeAddress, a.toNat⟩ s)) ∨
      (a.toNat ≤ 7 ∧ 7 < b.toNat ∧ execMul a b s = .next (raise ⟨.outOfRangeAddress, b.toNat⟩ s)) := by
  obtain ⟨r, q, hr, hq, h⟩ | ⟨hr, h⟩ | ⟨hr, hq, h⟩ := aluInstr_cases .multiply a b s
  · exact .inl ⟨r, q, hr, hq, by simp [execMul, h]⟩
  · exact .inr (.inl ⟨hr, by simp [execMul, h]⟩)
  · exact .inr (.inr ⟨hr, hq, by simp [execMul, h]⟩)

theorem execAdd_cases (a b : Byte) (s : State) :
    (∃ r q : RegIx, a.toNat = r.val ∧ b.toNat = q.val ∧
        execAdd a b s = .next ((aluApply .add r q s).setPc (s.pc + 3))) ∨
      (7 < a.toNat ∧ execAdd a b s = .next (raise ⟨.outOfRangeAddress, a.toNat⟩ s)) ∨
      (a.toNat ≤ 7 ∧ 7 < b.toNat ∧ execAdd a b s = .next (raise ⟨.outOfRangeAddress, b.toNat⟩ s)) := by
  obtain ⟨r, q, hr, hq, h⟩ | ⟨hr, h⟩ | ⟨hr, hq, h⟩ := aluInstr_cases .add a b s
  · exact .inl ⟨r, q, hr, hq, by simp [execAdd, h]⟩
  · exact .inr (.inl ⟨hr, by simp [execAdd, h]⟩)
  · exact .inr (.inr ⟨hr, hq, by simp [execAdd, h]⟩)

/-- The state after a byte `v` is pushed: SP one lower, and `v` in the cell there. -/
def pushed (s : State) (v : Byte) : State :=
  { s.writeReg 7 (s.sp.toNat - 1 : Nat) with mem := s.mem.write (s.sp.toNat - 1) v }

section
variable (s : State) (v : Byte)
@[simp] theorem pushed_mem : (pushed s v).mem = s.mem.write (s.sp.toNat - 1) v := rfl
@[simp] theorem pushed_pc : (pushed s v).pc = s.pc := rfl
@[simp] theorem pushed_status : (pushed s v).status = s.status := rfl
@[simp] theorem pushed_out : (pushed s v).out = s.out := rfl
@[simp] theorem pushed_reg (i : RegIx) :
    (pushed s v).reg i = if i = 7 then BitVec.ofNat 8 (s.sp.toNat - 1) else s.reg i := by
  have : (pushed s v).reg i = (s.writeReg 7 (s.sp.toNat - 1 : Nat)).reg i := rfl
  rw [this, State.reg_writeReg]
  simp
@[simp] theorem pushed_sp : (pushed s v).sp = BitVec.ofNat 8 (s.sp.toNat - 1) := by
  rw [State.sp_eq_reg, pushed_reg, if_pos rfl]
end

/-- The end of a push: decrementing SP and storing there. -/
theorem memWrite_spDec (s : State) (v : Byte) :
    memWrite (s.writeReg 7 (s.sp.toNat - 1 : Nat)).sp.toNat v (s.writeReg 7 (s.sp.toNat - 1 : Nat)) =
      .ok (pushed s v) := by
  have hb := s.sp.isLt
  rw [memWrite_byte, sp_writeReg_seven, toNat_ofNat_of_le (by omega)]
  rfl

theorem execPush_cases (a : Byte) (s : State) :
    (∃ r : RegIx, a.toNat = r.val ∧ 0 < s.sp.toNat ∧
        execPush a s = .next ((pushed s ((s.writeReg 7 (s.sp.toNat - 1 : Nat)).reg r)).setPc (s.pc + 2))) ∨
      (7 < a.toNat ∧ execPush a s = .next (raise ⟨.outOfRangeAddress, a.toNat⟩ s)) ∨
      (a.toNat ≤ 7 ∧ s.sp.toNat = 0 ∧ execPush a s = .next (raise ⟨.outOfRangeAddress, -1⟩ s)) := by
  obtain ⟨r, hr, h⟩ | ⟨hr, h⟩ := regIndex_cases a
  · obtain ⟨hs, h'⟩ | ⟨hs, h'⟩ := spDec_cases s
    · exact .inl ⟨r, hr, hs, by simp only [execPush, h, h', bind, Except.bind, memWrite_spDec, conclude_advance]⟩
    · exact .inr (.inr ⟨by omega, hs, by simp [execPush, h, h', bind, Except.bind]⟩)
  · exact .inr (.inl ⟨hr, by simp [execPush, h, bind, Except.bind]⟩)

theorem execPop_cases (a : Byte) (s : State) :
    (∃ r : RegIx, a.toNat = r.val ∧ (s.writeReg r (s.mem.read s.sp.toNat).toNat).sp.toNat < 255 ∧
        execPop a s = .next
          (((s.writeReg r (s.mem.read s.sp.toNat).toNat).writeReg 7
            ((s.writeReg r (s.mem.read s.sp.toNat).toNat).sp.toNat + 1 : Nat)).setPc (s.pc + 2))) ∨
      (7 < a.toNat ∧ execPop a s = .next (raise ⟨.outOfRangeAddress, a.toNat⟩ s)) ∨
      (∃ r : RegIx, a.toNat = r.val ∧ (s.writeReg r (s.mem.read s.sp.toNat).toNat).sp.toNat = 255 ∧
        execPop a s = .next (raise ⟨.outOfRangeAddress, 256⟩ s)) := by
  obtain ⟨r, hr, h⟩ | ⟨hr, h⟩ := regIndex_cases a
  · obtain ⟨hs, h'⟩ | ⟨hs, h'⟩ := spInc_cases (s.writeReg r (s.mem.read s.sp.toNat).toNat)
    · exact .inl ⟨r, hr, hs, by simp only [execPop, h, h', bind, Except.bind, memRead_byte, conclude_advance]⟩
    · exact .inr (.inr ⟨r, hr, hs,
        by simp only [execPop, h, h', bind, Except.bind, memRead_byte, conclude_error]⟩)
  · exact .inr (.inl ⟨hr, by simp [execPop, h, bind, Except.bind]⟩)

theorem execCall_cases (a : Byte) (s : State) :
    (∃ r : RegIx, a.toNat = r.val ∧ 0 < s.sp.toNat ∧ s.pc ≤ 253 ∧
        execCall a s = .next ((pushed s (BitVec.ofNat 8 (s.pc + 2))).setPc
          ((pushed s (BitVec.ofNat 8 (s.pc + 2))).reg r).toNat)) ∨
      (7 < a.toNat ∧ execCall a s = .next (raise ⟨.outOfRangeAddress, a.toNat⟩ s)) ∨
      (a.toNat ≤ 7 ∧ s.sp.toNat = 0 ∧ execCall a s = .next (raise ⟨.outOfRangeAddress, -1⟩ s)) ∨
      (a.toNat ≤ 7 ∧ 0 < s.sp.toNat ∧ 253 < s.pc ∧
        execCall a s = .next (raise ⟨.outOfRangeAddress, (s.pc + 2 : Nat)⟩ s)) := by
  obtain ⟨r, hr, h⟩ | ⟨hr, h⟩ := regIndex_cases a
  · obtain ⟨hs, h'⟩ | ⟨hs, h'⟩ := spDec_cases s
    · obtain ⟨hp, h2⟩ | ⟨hp, h2⟩ := returnAddress_cases (s.writeReg 7 (s.sp.toNat - 1 : Nat))
      · refine .inl ⟨r, hr, hs, hp, ?_⟩
        simp only [execCall, h, h', h2, bind, Except.bind, memWrite_spDec, conclude_explicit, State.pc_writeReg]
      · exact .inr (.inr (.inr ⟨by omega, hs, hp, by simp [execCall, h, h', h2, bind, Except.bind]⟩))
    · exact .inr (.inr (.inl ⟨by omega, hs, by simp [execCall, h, h', bind, Except.bind]⟩))
  · exact .inr (.inl ⟨hr, by simp [execCall, h, bind, Except.bind]⟩)

theorem execRet_cases (s : State) :
    (s.sp.toNat < 255 ∧ execRet s = .next ((s.writeReg 7 (s.sp.toNat + 1 : Nat)).setPc
        (s.mem.read s.sp.toNat).toNat)) ∨
      (s.sp.toNat = 255 ∧ execRet s = .next (raise ⟨.outOfRangeAddress, 256⟩ s)) := by
  obtain ⟨hs, h'⟩ | ⟨hs, h'⟩ := spInc_cases s
  · exact .inl ⟨hs, by simp only [execRet, h', bind, Except.bind, memRead_byte, conclude_explicit]⟩
  · exact .inr ⟨hs, by simp only [execRet, h', bind, Except.bind, memRead_byte, conclude_error]⟩

theorem execHlt_eq (s : State) : execHlt s = .next { s with status := .halted } := rfl

/-- No instruction stops: each answers a next state, its effect or the error it raises. -/
theorem exec_next (i : Instr) (s : State) : ∃ t, exec i s = .next t := by
  cases i <;> simp only [exec, execLdi, execPrn, execMul, execAdd, execPush, execPop, execCall, execRet, execHlt] <;>
    exact conclude_next _ _ _

end Sys2Proof.Machine
end

