-- ==== Sys2Proof/Laws/Fetch.lean ====
section
/-! SUPPORT. What fetching can answer: the four cases of R76 to R78, over the nine opcodes. -/

namespace Sys2Proof.Machine

/-- Fetching at a pc past the last cell (R76). -/
theorem fetchInstr_past_top {s : State} (h : 255 < s.pc) :
    fetchInstr s = .error ⟨.outOfRangeAddress, s.pc⟩ := by
  have : memRead (s.pc + (0 : Nat) : Int) s = .error ⟨.outOfRangeAddress, s.pc⟩ := by
    rw [memRead_error s (by omega)]; simp
  simp only [fetchInstr, decodeFrom, this, bind, Except.bind]

/-- Byte `k` of the instruction, where it exists. -/
theorem memRead_pc {s : State} {k : Nat} (h : s.pc + k ≤ 255) :
    memRead ((s.pc : Int) + (k : Nat)) s = .ok (s.mem.read (s.pc + k)) := by
  rw [← Int.natCast_add]; exact memRead_ok s h

theorem memRead_pc_error {s : State} {k : Nat} (h : 255 < s.pc + k) :
    memRead ((s.pc : Int) + (k : Nat)) s = .error ⟨.outOfRangeAddress, (s.pc + k : Nat)⟩ := by
  rw [← Int.natCast_add]; exact memRead_error s (by omega)

/-- Fetching a byte that is no opcode (R77). -/
theorem fetchInstr_unknown {s : State} (h : s.pc ≤ 255) (hl : lookup opcodeMap (s.mem.read s.pc) = none) :
    fetchInstr s = .error ⟨.unknownInstruction, (s.mem.read s.pc).toNat⟩ := by
  simp only [fetchInstr, decodeFrom, memRead_pc (k := 0) (by omega : s.pc + 0 ≤ 255), Nat.add_zero, hl, bind,
    Except.bind]

/-- Fetching an opcode and the operands it declares (R78). Where fewer than two are declared the builder ignores the
others: `lookup_cases`. -/
theorem fetchInstr_known {s : State} {build : Byte → Byte → Instr} (h : s.pc ≤ 255)
    (hl : lookup opcodeMap (s.mem.read s.pc) = some build) :
    (s.pc + operandCount (s.mem.read s.pc) ≤ 255 ∧
        fetchInstr s = .ok (build (s.mem.read (s.pc + 1)) (s.mem.read (s.pc + 2)))) ∨
      (255 < s.pc + operandCount (s.mem.read s.pc) ∧ fetchInstr s = .error ⟨.outOfRangeAddress, 256⟩) := by
  have h0 := memRead_pc (k := 0) (by omega : s.pc + 0 ≤ 255)
  have hf : fetchInstr s = _ := decodeFrom_known (m := opcodeMap) (read := fun k => memRead (s.pc + k) s)
    (unknown := fun op => ⟨.unknownInstruction, op.toNat⟩) h0 hl
  rw [hf, Nat.add_zero]
  obtain ⟨hn, hb⟩ | ⟨hn, hb⟩ | hn := lookup_build hl
  · rw [hn]
    exact .inl ⟨by omega, congrArg Except.ok (hb _ _ _ _)⟩
  · rw [hn]
    by_cases hp : s.pc ≤ 254
    · rw [memRead_pc (by omega : s.pc + 1 ≤ 255)]
      exact .inl ⟨by omega, congrArg Except.ok (hb _ _ _)⟩
    · rw [memRead_pc_error (by omega : 255 < s.pc + 1), show s.pc + 1 = 256 by omega]
      exact .inr ⟨by omega, rfl⟩
  · rw [hn]
    by_cases hp : s.pc ≤ 253
    · rw [memRead_pc (by omega : s.pc + 1 ≤ 255), memRead_pc (by omega : s.pc + 2 ≤ 255)]
      exact .inl ⟨by omega, rfl⟩
    · by_cases hq : s.pc ≤ 254
      · rw [memRead_pc (by omega : s.pc + 1 ≤ 255), memRead_pc_error (by omega : 255 < s.pc + 2),
          show s.pc + 2 = 256 by omega]
        exact .inr ⟨by omega, rfl⟩
      · rw [memRead_pc_error (by omega : 255 < s.pc + 1), show s.pc + 1 = 256 by omega]
        exact .inr ⟨by omega, rfl⟩

/-- What a step of a Running engine is (R75, R81): the meaning of the fetched instruction, or the fetch's error. -/
theorem step_running {s : State} (h : s.status = .running) :
    (∃ i, fetchInstr s = .ok i ∧ step s = exec i s) ∨
      (∃ r, fetchInstr s = .error r ∧ step s = .next (raise r s)) := by
  cases hf : fetchInstr s with
  | ok i => exact .inl ⟨i, rfl, by simp [step, h, hf]⟩
  | error r => exact .inr ⟨r, rfl, by simp [step, h, hf]⟩

end Sys2Proof.Machine
end

