-- ==== Sys2Proof/Tests/Slice0.lean ====
section
/-! SUPPORT. Tests: the words of each instruction, the well-formedness checks, one step per vector of
95_test_vectors.md (its numbers stand in the comments), and for each obligation with hypotheses a state that meets
them, one clause after another. -/

namespace Sys2Proof.Tests

open Sys2Proof Sys2Proof.Machine

/-- A constructed machine with a pc, memory cells in rising order, and two registers set. -/
def mk (pc : Nat) (mem : Memory) (sp : Byte := 244#8) (r : RegIx := 0) (v : Byte := 0#8) (q : RegIx := 1)
    (w : Byte := 0#8) : State :=
  { (((State.reset.writeReg r v.toNat).writeReg q w.toNat).writeReg 7 sp.toNat) with pc := pc, mem := mem }

/-- What a property of the next state is, if there is one. -/
def after {α : Type} (o : Host.Outcome State Fault Refusal) (f : State → α) : Option α :=
  match o with
  | .next t => some (f t)
  | .fault _ => none
  | .refused _ => none

/-- The error record of the next state: `none` inside where there is none. -/
def recordOf (o : Host.Outcome State Fault Refusal) : Option Status := after o State.status

/-- The instruction a decoding gives. -/
def instrOf (bs : List Byte) : Option Instr :=
  match decode bs with
  | .ok (i, _) => some i
  | .error _ => none

/-- The reason a decoding gives. -/
def reasonOf (bs : List Byte) : Option DecodeError :=
  match decode bs with
  | .ok _ => none
  | .error e => some e

/-! ### Well-formedness: each check refuses an ill-formed instruction (R61) -/

theorem test_wellFormed_ldi : Instr.wellFormed (.ldi 8 0) = false ∧ Instr.wellFormed (.ldi 7 255) := by decide
theorem test_wellFormed_prn : Instr.wellFormed (.prn 8) = false := by decide
theorem test_wellFormed_mul : Instr.wellFormed (.mul 8 0) = false ∧ Instr.wellFormed (.mul 0 8) = false := by decide
theorem test_wellFormed_add : Instr.wellFormed (.add 255 0) = false ∧ Instr.wellFormed (.add 0 9) = false := by decide
theorem test_wellFormed_push : Instr.wellFormed (.push 8) = false := by decide
theorem test_wellFormed_pop : Instr.wellFormed (.pop 8) = false := by decide
theorem test_wellFormed_call : Instr.wellFormed (.call 128) = false := by decide

/-- R58: a map with a wrong count, or with a value used twice, is not valid. -/
theorem test_invalid_maps :
    ¬ ({ opcodeMap with hlt := 0x41#8 } : Config.OpcodeMap).Valid ∧
    ¬ ({ opcodeMap with hlt := 0x11#8 } : Config.OpcodeMap).Valid :=
  ⟨fun h => absurd h.hlt (by decide), fun h => absurd h.distinct (by decide)⟩

/-! ### Decoding, the words written out from R59's table -/

theorem test_decode_ldi : instrOf [0b10000010#8, 0x03#8, 0x2A#8] = some (.ldi 3 42) := by decide
theorem test_decode_prn : instrOf [0b01000111#8, 0x05#8] = some (.prn 5) := by decide
theorem test_decode_mul : instrOf [0b10100010#8, 0x00#8, 0x01#8] = some (.mul 0 1) := by decide
theorem test_decode_add : instrOf [0b10100000#8, 0x00#8, 0x02#8] = some (.add 0 2) := by decide
theorem test_decode_push : instrOf [0b01000101#8, 0x07#8] = some (.push 7) := by decide
theorem test_decode_pop : instrOf [0b01000110#8, 0x03#8] = some (.pop 3) := by decide
theorem test_decode_call : instrOf [0b01010000#8, 0x01#8] = some (.call 1) := by decide
theorem test_decode_ret : instrOf [0b00010001#8] = some .ret := by decide
theorem test_decode_hlt : instrOf [0b00000001#8] = some .hlt := by decide
/-- D-10 to D-14: no opcode, whatever follows or does not. -/
theorem test_decode_unknown :
    [0x00#8, 0x02#8, 0x81#8, 0xC0#8, 0xFF#8].map (fun b => reasonOf [b]) =
      [0x00#8, 0x02#8, 0x81#8, 0xC0#8, 0xFF#8].map (fun b => some (.unknownOpcode b)) := by decide
theorem test_decode_missing :
    reasonOf [] = some (.missingByte 0) ∧ reasonOf [0x82#8] = some (.missingByte 1) ∧
    reasonOf [0x82#8, 0#8] = some (.missingByte 2) := by decide
theorem test_decodeTableWord :
    decodeTableWord 24 0x2A0382 = some (.ldi 3 42) ∧ decodeTableWord 8 0x82 = some (.ldi 0 0) ∧
    decodeTableWord 8 0x11 = some .ret ∧ decodeTableWord 16 0x00C0 = none := by decide
/-- R67's example. -/
theorem test_encode_ldi : encode (.ldi 0 8) = [0x82#8, 0x00#8, 0x08#8] := by decide

/-! ### One step each (95_test_vectors.md) -/

/-- L-1. -/
theorem test_ldi : after (step (mk 0 [(0, 0x82), (1, 3), (2, 42)])) (fun t => (t.reg 3, t.pc)) = some (42, 3) := by
  decide
/-- L-5. -/
theorem test_ldi_bad : recordOf (step (mk 0 [(0, 0x82), (1, 255)])) = some (.error .outOfRangeAddress 0 255) := by
  decide
/-- L-6. -/
theorem test_prn : after (step (mk 0 [(0, 0x47), (1, 5)] (r := 5) (v := 255))) (fun t => (t.out, t.pc)) =
    some ([255], 2) := by decide
/-- E-3, then the fetch at 256. -/
theorem test_prn_top : after (step (mk 254 [(254, 0x47)])) (fun t => (t.pc, recordOf (step t))) =
    some (256, some (.error .outOfRangeAddress 256 256)) := by decide
/-- M-7, M-3. -/
theorem test_mul : after (exec (.mul 0 1) (mk 0 [] (v := 13) (w := 20))) (fun t => (t.reg 0, t.reg 1, t.pc)) =
    some (4, 20, 3) ∧ after (exec (.mul 0 1) (mk 0 [] (v := 255) (w := 255))) (fun t => t.reg 0) = some 1 := by decide
/-- AE-3: operand A is checked first. -/
theorem test_mul_bad : recordOf (exec (.mul 8 9) (mk 7 [])) = some (.error .outOfRangeAddress 7 8) := by decide
/-- A-3, A-8. -/
theorem test_add : after (exec (.add 0 1) (mk 0 [] (v := 200) (w := 100))) (fun t => t.reg 0) = some 44 ∧
    after (exec (.add 1 1) (mk 0 [] (w := 128))) (fun t => t.reg 1) = some 0 := by decide
/-- AE-2. -/
theorem test_add_bad : recordOf (exec (.add 0 9) (mk 7 [])) = some (.error .outOfRangeAddress 7 9) := by decide
/-- K-2: PUSH R7 stores the decremented SP. -/
theorem test_push_sp : after (exec (.push 7) (mk 0 [])) (fun t => (t.sp, t.mem, t.pc)) =
    some (243, [(243, 243)], 2) := by decide
/-- K-4. -/
theorem test_push_below : recordOf (exec (.push 0) (mk 9 [] (sp := 0))) = some (.error .outOfRangeAddress 9 (-1)) := by
  decide
/-- K-9, K-7. -/
theorem test_pop : after (exec (.pop 7) (mk 0 [(100, 5)] (sp := 100))) State.sp = some 6 ∧
    after (exec (.pop 3) (mk 0 [(243, 9)] (sp := 243))) (fun t => (t.reg 3, t.sp, t.pc)) = some (9, 244, 2) := by decide
/-- K-8, K-10. -/
theorem test_pop_above : recordOf (exec (.pop 0) (mk 9 [] (sp := 255))) = some (.error .outOfRangeAddress 9 256) ∧
    recordOf (exec (.pop 7) (mk 9 [(100, 255)] (sp := 100))) = some (.error .outOfRangeAddress 9 256) := by decide
/-- C-1, C-2. -/
theorem test_call : after (exec (.call 1) (mk 9 [] (w := 17))) (fun t => (t.sp, t.mem, t.pc)) =
    some (243, [(243, 11)], 17) ∧
    after (exec (.call 7) (mk 0 [])) (fun t => (t.mem, t.pc)) = some ([(243, 2)], 243) := by decide
/-- C-3, and C-4's order: SP before the return address. -/
theorem test_call_bad : recordOf (exec (.call 0) (mk 254 [])) = some (.error .outOfRangeAddress 254 256) ∧
    recordOf (exec (.call 0) (mk 254 [] (sp := 0))) = some (.error .outOfRangeAddress 254 (-1)) := by decide
/-- C-6, E-2. -/
theorem test_ret : after (step (mk 255 [(243, 5), (255, 0x11)] (sp := 243))) (fun t => (t.pc, t.sp)) =
    some (5, 244) := by decide
/-- C-7. -/
theorem test_ret_above : recordOf (exec .ret (mk 3 [] (sp := 255))) = some (.error .outOfRangeAddress 3 256) := by
  decide
/-- C-9, E-1, and R85: no step after it. -/
theorem test_hlt : after (step (mk 255 [(255, 1)])) (fun t => (t.status, t.pc, recordOf (step t))) =
    some (.halted, 255, none) := by decide
/-- E-7, E-8, E-5: an unknown opcode reads no operand. -/
theorem test_fetch_errors :
    recordOf (step (mk 254 [(254, 0xC0)])) = some (.error .unknownInstruction 254 0xC0) ∧
    recordOf (step (mk 255 [(255, 0xA2)])) = some (.error .outOfRangeAddress 255 256) ∧
    recordOf (step (mk 254 [(254, 0x82)])) = some (.error .outOfRangeAddress 254 256) := by decide
/-- R168: an image that does not fit, and a value that is no byte. -/
theorem test_loadBytes_refuses :
    (match loadBytes [1, 2] 255 construct with | .ok _ => none | .error k => some k) = some .outOfRangeAddress ∧
    (match loadBytes [256] 0 construct with | .ok _ => none | .error k => some k) = some .outOfRangeAddress := by decide
/-- The text of program P1 (R65), and a text that is no instruction. -/
theorem test_assemble :
    Asm.assemble "LDI R0,8; PRN R0; HLT".toList = some [0x82#8, 0#8, 8#8, 0x47#8, 0#8, 1#8] ∧
    Asm.parse "LDI R8,0x0".toList = none ∧ Asm.parse " ADD R0, R2".toList = some (.add 0 2) ∧
    Asm.parse "LDI R3, 0b101".toList = some (.ldi 3 5) ∧ Asm.parse "LDI R3,0xfF".toList = some (.ldi 3 255) ∧ Asm.parse "LDI R3,256".toList = none := by decide

/-! ### Witnesses: the hypotheses of each obligation can be met, clause by clause -/

/-- The constructed machine meets the invariant. -/
theorem reset_inv : State.reset.Inv := ⟨by decide, by decide, fun _ _ _ h => by cases h⟩

/-- The opcode map of this hardware is valid. -/
theorem opcodeMap_valid : opcodeMap.Valid :=
  ⟨by decide, rfl, rfl, rfl, rfl, rfl, rfl, rfl, rfl, rfl⟩

theorem witness_StepKeepsTheInvariant :
    State.reset.Inv ∧ (mk 0 [(0, 0x45)]).mem.wf ∧ after (step (mk 0 [(0, 0x45)])) State.sp = some 243 :=
  ⟨reset_inv, by decide, by decide⟩
theorem witness_DecodeOfEncodeGivesTheInstruction : opcodeMap.Valid := opcodeMap_valid
theorem witness_DecodedBytesAreTheEncoding :
    opcodeMap.Valid ∧ decodeWith opcodeMap [0x11#8, 0x2A#8] = .ok (.ret, [0x2A#8]) := ⟨opcodeMap_valid, rfl⟩
theorem witness_ExactlyNineOpcodes : (0xFF#8 : Byte).extractLsb 7 6 = 3#2 := by decide
theorem witness_LengthIsOperandCountPlusOne : opcodeMap.Valid := opcodeMap_valid
theorem witness_MemoryPortReadsWhatWasWritten :
    ((0 : Int) ≤ 255 ∧ (255 : Int) ≤ 255) ∧ ((-1 : Int) < 0 ∨ 255 < (-1 : Int)) ∧ ((256 : Int) < 0 ∨ 255 < (256 : Int)) := by
  decide
theorem witness_EqualReadsGiveEqualMemory : Memory.wf [(0, 1#8), (255, 2#8)] := by decide
theorem witness_RegisterIndexIsChecked : (7#8 : Byte).toNat ≤ 7 ∧ 7 < (8#8 : Byte).toNat := by decide
theorem witness_StackPointerIsCheckedNotWrapped :
    (mk 0 [] (sp := 0)).sp.toNat = 0 ∧ 0 < (mk 0 [] (sp := 1)).sp.toNat ∧ (mk 0 [] (sp := 255)).sp.toNat = 255 ∧
    (mk 0 [] (sp := 254)).sp.toNat < 255 := by decide
theorem witness_LdiLoadsTheImmediate :
    (mk 253 [(253, 0x82), (254, 7), (255, 255)]).at [0x82#8, 7#8, 255#8] ∧ (7#8 : Byte).toNat = (7 : RegIx).val ∧
    7 < (8#8 : Byte).toNat ∧ (mk 254 [(254, 0x82)]).mem.read 254 = 0x82#8 ∧
    (mk 255 [(255, 0x82)]).mem.read 255 = 0x82#8 := by decide
theorem witness_PrnEmitsTheRegister :
    (mk 254 [(254, 0x47), (255, 7)]).at [0x47#8, 7#8] ∧ (7#8 : Byte).toNat = (7 : RegIx).val ∧
    7 < (8#8 : Byte).toNat ∧ (mk 255 [(255, 0x47)]).mem.read 255 = 0x47#8 := by decide
theorem witness_MulWritesTheProduct :
    (mk 253 [(253, 0xA2), (254, 7), (255, 7)]).at [0xA2#8, 7#8, 7#8] ∧ (7#8 : Byte).toNat = (7 : RegIx).val ∧
    ((7#8 : Byte).toNat ≤ 7 ∧ 7 < (8#8 : Byte).toNat) ∧ (mk 254 [(254, 0xA2)]).mem.read 254 = 0xA2#8 ∧
    (mk 255 [(255, 0xA2)]).mem.read 255 = 0xA2#8 := by decide
theorem witness_AddWritesTheSum :
    (mk 253 [(253, 0xA0), (254, 1), (255, 7)]).at [0xA0#8, 1#8, 7#8] ∧ (1#8 : Byte).toNat = (1 : RegIx).val ∧
    ((7#8 : Byte).toNat ≤ 7 ∧ 7 < (8#8 : Byte).toNat) ∧ (mk 254 [(254, 0xA0)]).mem.read 254 = 0xA0#8 ∧
    (mk 255 [(255, 0xA0)]).mem.read 255 = 0xA0#8 := by decide
theorem witness_PushStoresBelowTheStackPointer :
    (mk 254 [(254, 0x45), (255, 7)]).at [0x45#8, 7#8] ∧ (7#8 : Byte).toNat = (7 : RegIx).val ∧
    0 < (mk 0 [] (sp := 1)).sp.toNat ∧ 7 < (8#8 : Byte).toNat ∧ (mk 0 [] (sp := 0)).sp = 0#8 ∧
    (mk 255 [(255, 0x45)]).mem.read 255 = 0x45#8 := by decide
theorem witness_PopLoadsAtTheStackPointer :
    (mk 254 [(254, 0x46), (255, 7)]).at [0x46#8, 7#8] ∧
    ((6 : RegIx) ≠ 7 ∧ (6#8 : Byte).toNat = (6 : RegIx).val ∧ (mk 0 [] (sp := 254)).sp.toNat < 255) ∧
    (mk 0 [(255, 254)] (sp := 255)).mem.read 255 ≠ 255#8 ∧ (mk 0 [(255, 255)] (sp := 255)).mem.read 255 = 255#8 ∧
    ((6#8 : Byte).toNat < 7 ∧ (mk 0 [] (sp := 255)).sp = 255#8) ∧ 7 < (8#8 : Byte).toNat ∧
    (mk 255 [(255, 0x46)]).mem.read 255 = 0x46#8 := by decide
theorem witness_CallPushesTheReturnAddress :
    (mk 254 [(254, 0x50), (255, 7)]).at [0x50#8, 7#8] ∧
    ((7#8 : Byte).toNat = (7 : RegIx).val ∧ 0 < (mk 253 [] (sp := 1)).sp.toNat ∧ (mk 253 [] (sp := 1)).pc ≤ 253) ∧
    7 < (8#8 : Byte).toNat ∧ (mk 254 [] (sp := 0)).sp = 0#8 ∧ (mk 254 [] (sp := 1)).pc = 254 ∧
    (mk 255 [(255, 0x50)]).mem.read 255 = 0x50#8 := by decide
theorem witness_RetTakesTheReturnAddress :
    (mk 255 [(255, 0x11)]).at [0x11#8] ∧ (mk 0 [] (sp := 254)).sp.toNat < 255 ∧ (mk 0 [] (sp := 255)).sp = 255#8 := by
  decide
theorem witness_HltHaltsAndChangesNothingElse : (mk 255 [(255, 1)]).at [0x01#8] := by decide
theorem witness_FrameOfRegisterInstructions :
    after (exec (.ldi 7 1) (mk 0 [])) State.failed = some false ∧ after (exec (.prn 7) (mk 0 [])) State.failed = some false ∧
    after (exec (.mul 0 7) (mk 0 [])) State.failed = some false ∧
    after (exec (.add 7 7) (mk 0 [])) State.failed = some false := by decide
theorem witness_FrameOfStackLoads :
    after (exec .ret (mk 0 [])) State.failed = some false ∧ after (exec (.pop 7) (mk 0 [])) State.failed = some false := by
  decide
theorem witness_FrameOfStackStores :
    after (exec (.push 7) (mk 0 [] (sp := 1))) State.failed = some false ∧
    after (exec (.call 7) (mk 253 [] (sp := 1))) State.failed = some false := by decide
/-- Two states that differ in R1 alone, which PUSH R0 does not read. -/
theorem witness_RegistersReadAndWrittenTable :
    after (exec (.push 0) (mk 0 [] (v := 5) (w := 1))) State.failed = some false ∧
    after (exec (.push 0) (mk 0 [] (v := 5) (w := 2))) State.failed = some false ∧
    (∀ r : RegIx, r.val ∈ readRegs (.push 0) → (mk 0 [] (v := 5) (w := 2)).reg r = (mk 0 [] (v := 5) (w := 1)).reg r) ∧
    (mk 0 [] (v := 5) (w := 2)).reg 1 ≠ (mk 0 [] (v := 5) (w := 1)).reg 1 := by decide
theorem witness_StepRunsTheDecodedInstruction :
    (mk 255 [(255, 1)]).status = .running ∧ decode (mk 255 [(255, 1)]).codeAt = .ok (.hlt, []) := ⟨rfl, rfl⟩
theorem witness_StepRaisesWhatTheDecoderRefuses :
    decode (mk 0 []).codeAt = .error (.unknownOpcode 0#8) ∧
    decode (mk 254 [(254, 0x82)]).codeAt = .error (.missingByte 2) ∧
    decode (mk 256 []).codeAt = .error (.missingByte 0) := ⟨rfl, rfl, rfl⟩
theorem witness_OpcodeFetchPastTheTopRaises : (mk 256 []).status = .running ∧ 255 < (mk 256 []).pc := by decide
theorem witness_UnknownOpcodeRaisesBeforeOperands :
    (mk 255 [(255, 0xC0)]).pc ≤ 255 ∧ (mk 255 [(255, 0xC0)]).mem.read 255 ∉
      [0x82#8, 0x47#8, 0xA2#8, 0xA0#8, 0x45#8, 0x46#8, 0x50#8, 0x11#8, 0x01#8] := by decide
theorem witness_OnlyDeclaredOperandsAreFetched :
    lookup opcodeMap ((mk 254 [(254, 0x45)]).mem.read 254) = some (fun a _ => .push a) ∧
    254 + operandCount 0x45#8 ≤ 255 ∧ 255 < 254 + operandCount 0x82#8 ∧ 255 < 255 + operandCount 0x45#8 :=
  ⟨rfl, by decide, by decide, by decide⟩
theorem witness_DefaultAdvanceIsNotWrapped :
    after (step (mk 253 [(253, 0x82)])) (fun t => (t.failed, t.pc)) = some (false, 256) ∧
    (mk 253 [(253, 0x82)]).mem.read 253 ∉ [0x50#8, 0x11#8, 0x01#8] := by decide
theorem witness_ErrorsHaveExactlyTheListedCauses :
    recordOf (step (mk 0 [(0, 0x45)] (sp := 0))) = some (.error .outOfRangeAddress 0 (-1)) ∧
    Cause (mk 0 [(0, 0x45)] (sp := 0)) .outOfRangeAddress (-1) :=
  ⟨by decide, .stackBelowZero (by decide) (by decide) (by decide)⟩
theorem witness_StepDependsOnMachineStateOnly :
    (∃ t, step (mk 0 [(0, 0x47)]) = .next t) ∧
    ({ mk 0 [(0, 0x47)] with out := [1#8] } : State).regs = (mk 0 [(0, 0x47)]).regs := ⟨⟨_, rfl⟩, rfl⟩
theorem witness_OnlyHltReachesHalted : after (step (mk 0 [(0, 1)])) State.status = some .halted := by decide
theorem witness_OnlyPrnAppendsToTheOutput : after (step (mk 0 [(0, 0x47)])) State.out = some [0#8] := by decide
theorem witness_OnlyPushAndCallWriteMemory :
    after (step (mk 0 [(0, 0x45), (1, 7)] (sp := 1))) (fun t => (t.failed, t.mem.read 0)) = some (false, 0#8) := by decide
theorem witness_StepLeavesPcAtMost256 : after (step (mk 254 [(254, 0x45)])) State.pc = some 256 := by decide
theorem witness_StoredByteIsFetchedNext :
    (mk 6 [(6, 0x45)] (sp := 9) (v := 1)).at [0x45#8, 0#8] ∧ (mk 6 [(6, 0x45)] (sp := 9) (v := 1)).sp.toNat = 6 + 3 ∧
    (mk 6 [(6, 0x45)] (sp := 9) (v := 1)).reg 0 = 0x01#8 ∧
    (mk 6 [(6, 0x45)] (sp := 9) (v := 2)).reg 0 ∉ opcodeMap.values := by decide
theorem witness_PushThenPopRestores :
    after (exec (.push 7) (mk 0 [])) (fun t => (t.failed, after (exec (.pop 7) t) State.failed)) =
      some (false, some false) := by decide
theorem witness_StackIsLastInFirstOut :
    (mk 0 []).status = .running ∧ (∀ r ∈ ([0, 1] : List RegIx), r ≠ 7) ∧ 2 ≤ (mk 0 []).sp.toNat := by decide
theorem witness_PushesFillDownToAddressZero :
    (∀ r ∈ ([0, 1] : List RegIx), r ≠ 7) ∧ ([0, 1] : List RegIx).length = (mk 0 [] (sp := 2)).sp.toNat := by decide
theorem witness_CallThenRetReturns :
    (mk 20 [(20, 0x50), (21, 1), (30, 0x11)] (w := 30)).at [0x50#8, 1#8] ∧
    after (step (mk 20 [(20, 0x50), (21, 1), (30, 0x11)] (w := 30))) (fun t => (t.failed, t.mem.read t.pc)) =
      some (false, 0x11#8) := by decide
theorem witness_LoadBytesFillsConsecutiveCells :
    ((0 : Int) ≤ 254 ∧ (254 : Int) + ([0, 255] : List Int).length ≤ 256 ∧ ∀ v ∈ ([0, 255] : List Int), 0 ≤ v ∧ v ≤ 255) ∧
    (255 : Int) < 255 + (1 : Nat) := by decide
theorem witness_LoadedImageRunsFromAddressZero :
    (match loadBytes ((encode (.prn 7) ++ [1#8]).map fun b => (b.toNat : Int)) 0 construct with
      | .ok t => t.mem | .error _ => []) = [(0, 0x47#8), (1, 7#8), (2, 1#8)] := by decide
theorem witness_PlacedWordRunsNext :
    (mk 253 []).pc ≤ 253 ∧ decodeTableWord 24 0x010282 = some (.ldi 2 1) := by decide
theorem witness_RunEndsInOneWayOrNever :
    (runSteps 3 (mk 0 [(0, 0x82), (2, 8), (3, 0x47), (5, 1)])).result = some .halted := by decide
theorem witness_HaltedEngineStaysHalted : ({ State.reset with status := .halted } : State).status = .halted ∧
    ({ State.reset with status := .error .outOfRangeAddress 256 256 } : State).status =
      .error .outOfRangeAddress 256 256 := ⟨rfl, rfl⟩
theorem witness_RunReturnsTheStatusReached :
    after (step (mk 0 [(0, 0x47)])) State.status = some .running ∧
    after (step (mk 255 [(255, 1)])) State.status = some .halted ∧
    recordOf (step (mk 256 [])) = some (.error .outOfRangeAddress 256 256) := by decide
theorem witness_AssemblerReadsWhatItWrites :
    Asm.text (.ldi 0 8) = some "LDI R0,8".toList ∧ Asm.parse "ADD R0,R7".toList = some (.add 0 7) := by decide
/-- The text of P1 (R65's scenario). -/
theorem witness_ProgramTextGivesItsBytes :
    Asm.listing [(.ldi 0 8, ';', 1), (.prn 0, '\n', 0)] .hlt = "LDI R0,8; PRN R0\nHLT".toList ∧
    (∀ p ∈ ([(.ldi 0 8, ';', 1), (.prn 0, '\n', 0)] : List (Instr × Char × Nat)),
      p.1.wellFormed ∧ (p.2.1 = '\n' ∨ p.2.1 = ';')) := by decide
/-- The numerals 255 and 256 in each base. -/
theorem witness_ImmediatesAreReadInThreeBases :
    (∀ d ∈ [2, 5, 5], d < 10) ∧ (∀ d ∈ [15, 15], d < 16) ∧ (∀ d ∈ [1, 0, 0, 0, 0, 0, 0, 0, 0], d < 2) ∧
    Asm.numeralValue 10 [2, 5, 5] = 255 ∧ Asm.numeralValue 16 [15, 15] = 255 ∧
    Asm.numeralValue 2 [1, 0, 0, 0, 0, 0, 0, 0, 0] = 256 := by decide

end Sys2Proof.Tests
end

section
/-! SUPPORT. The statements about the ports that 00_scope.md names: the memory port (R11), the register file (R9, R10)
and the check of a register index (R12). -/

namespace Sys2Proof.Machine

/-! ### Facts about the ports -/

/-- A store into one cell is not seen at any other integer address, whether that address exists or raises. -/
theorem memRead_write_other (s : State) {a : Nat} {b : Int} (h : b ≠ a) (v : Byte) :
    memRead b { s with mem := s.mem.write a v } = memRead b s := by
  by_cases hb : b < 0 ∨ 255 < b
  · rw [memRead_error _ hb, memRead_error _ hb]
  · obtain ⟨n, rfl⟩ := Int.eq_ofNat_of_zero_le (by omega : 0 ≤ b)
    have hn : n ≤ 255 := by omega
    have hna : n ≠ a := mod_cast h
    rw [memRead_ok _ hn, memRead_ok _ hn, Memory.read_write_other _ hna]

/-- A store into an existing cell is what a read of that cell returns. -/
theorem memRead_write_same (s : State) {a : Nat} (ha : a ≤ 255) (v : Byte) :
    memRead a { s with mem := s.mem.write a v } = .ok v := by
  rw [memRead_ok _ ha, Memory.read_write_same]

/-- Bringing an integer to 8 bits is the reduction mod 256 of R10, negative integers included. -/
theorem toNat_ofInt_eq_emod (v : Int) : ((BitVec.ofInt 8 v).toNat : Int) = v % 256 := by
  rw [BitVec.toNat_ofInt]
  exact Int.toNat_of_nonneg (Int.emod_nonneg v (by decide))

/-- A register write keeps every register but the one written. -/
theorem regsKeptBut_writeReg (s : State) (i : RegIx) (v : Int) : RegsKeptBut [i] s (s.writeReg i v) :=
  fun _ hj => State.reg_writeReg_other s i v (List.ne_of_not_mem_cons hj)

/-! ### The statements -/

/-- Settles O9: an address in range is a natural number, where the laws of memory apply; any other raises. -/
theorem memoryPortReadsWhatWasWritten : Obligations.MemoryPortReadsWhatWasWritten := by
  intro s a v
  constructor
  · rintro ⟨h0, h255⟩
    obtain ⟨n, rfl⟩ := Int.eq_ofNat_of_zero_le h0
    have hn : n ≤ 255 := by omega
    exact ⟨_, memWrite_ok s hn v, memRead_write_same s hn v, fun _ hb => memRead_write_other s hb v,
      rfl, rfl, rfl, rfl⟩
  · intro h
    exact ⟨memWrite_error s h v, memRead_error s h⟩

/-- Settles O11: the register written holds the value brought to 8 bits, and the update touches nothing else. -/
theorem registerWriteStoresMod256 : Obligations.RegisterWriteStoresMod256 := by
  intro s i v
  have hval : (((s.writeReg i v).reg i).toNat : Int) = v % 256 := by
    rw [State.reg_writeReg_same, toNat_ofInt_eq_emod]
  exact ⟨hval, regsKeptBut_writeReg s i v, s.sp_eq_reg, s.mem_writeReg i v, s.pc_writeReg i v,
    s.status_writeReg i v, s.out_writeReg i v⟩

/-- Settles O12: up to 7 the byte is itself the index; above 7 it is the detail of the error. -/
theorem registerIndexIsChecked : Obligations.RegisterIndexIsChecked := by
  intro b
  constructor
  · intro hb
    exact ⟨⟨b.toNat, by omega⟩, regIndex_ok rfl, rfl⟩
  · exact regIndex_error

end Sys2Proof.Machine
end

section
/-! SUPPORT. What an instruction that raises nothing leads to: the relation `Completes`, tied to `exec` both ways
(`exec_cases`, `Completes.exec_eq`), and what it leaves unchanged, field by field. -/

namespace Sys2Proof.Machine

/-- `Completes s i t`: instruction `i` raises nothing in `s` and leads to `t`. One constructor per instruction, with
the conditions under which it raises nothing. -/
inductive Completes (s : State) : Instr → State → Prop where
  | ldi {a b : Byte} (r : RegIx) (ha : a.toNat = r.val) :
      Completes s (.ldi a b) ((s.writeReg r b.toNat).setPc (s.pc + 3))
  | prn {a : Byte} (r : RegIx) (ha : a.toNat = r.val) :
      Completes s (.prn a) ((s.emit (s.reg r)).setPc (s.pc + 2))
  | mul {a b : Byte} (r q : RegIx) (ha : a.toNat = r.val) (hb : b.toNat = q.val) :
      Completes s (.mul a b) ((aluApply .multiply r q s).setPc (s.pc + 3))
  | add {a b : Byte} (r q : RegIx) (ha : a.toNat = r.val) (hb : b.toNat = q.val) :
      Completes s (.add a b) ((aluApply .add r q s).setPc (s.pc + 3))
  | push {a : Byte} (r : RegIx) (ha : a.toNat = r.val) (hsp : 0 < s.sp.toNat) :
      Completes s (.push a) ((pushed s ((s.writeReg 7 (s.sp.toNat - 1 : Nat)).reg r)).setPc (s.pc + 2))
  | pop {a : Byte} (r : RegIx) (ha : a.toNat = r.val)
      (hsp : (s.writeReg r (s.mem.read s.sp.toNat).toNat).sp.toNat < 255) :
      Completes s (.pop a) (((s.writeReg r (s.mem.read s.sp.toNat).toNat).writeReg 7
        ((s.writeReg r (s.mem.read s.sp.toNat).toNat).sp.toNat + 1 : Nat)).setPc (s.pc + 2))
  | call {a : Byte} (r : RegIx) (ha : a.toNat = r.val) (hsp : 0 < s.sp.toNat) (hpc : s.pc ≤ 253) :
      Completes s (.call a) ((pushed s (BitVec.ofNat 8 (s.pc + 2))).setPc
        ((pushed s (BitVec.ofNat 8 (s.pc + 2))).reg r).toNat)
  | ret (hsp : s.sp.toNat < 255) :
      Completes s .ret ((s.writeReg 7 (s.sp.toNat + 1 : Nat)).setPc (s.mem.read s.sp.toNat).toNat)
  | hlt : Completes s .hlt { s with status := .halted }

/-- The detail of an error that an instruction fetched from memory can raise is -1 or 8 to 256 (R146). -/
abbrev DetailPossible (d : Int) : Prop := d = -1 ∨ 8 ≤ d ∧ d ≤ 256

/-- An operand byte that names no register is a possible detail. -/
theorem detailPossible_byte {b : Byte} (h : 7 < b.toNat) : DetailPossible b.toNat := by
  have := b.isLt
  exact .inr (by omega)

/-- An instruction completes or raises `OutOfRangeAddress`. The detail's bounds need CALL to lie below address 256:
its return address is `pc + 2` (R131). -/
theorem exec_cases (i : Instr) (s : State) :
    (∃ t, Completes s i t ∧ exec i s = .next t) ∨
      ∃ d, exec i s = .next (raise ⟨.outOfRangeAddress, d⟩ s) ∧
        (s.pc + (encode i).length ≤ 256 → DetailPossible d) := by
  cases i with
  | ldi a b =>
    obtain ⟨r, ha, he⟩ | ⟨ha, he⟩ := execLdi_cases a b s
    · exact .inl ⟨_, .ldi r ha, he⟩
    · exact .inr ⟨_, he, fun _ => detailPossible_byte ha⟩
  | prn a =>
    obtain ⟨r, ha, he⟩ | ⟨ha, he⟩ := execPrn_cases a s
    · exact .inl ⟨_, .prn r ha, he⟩
    · exact .inr ⟨_, he, fun _ => detailPossible_byte ha⟩
  | mul a b =>
    obtain ⟨r, q, ha, hb, he⟩ | ⟨ha, he⟩ | ⟨-, hb, he⟩ := execMul_cases a b s
    · exact .inl ⟨_, .mul r q ha hb, he⟩
    · exact .inr ⟨_, he, fun _ => detailPossible_byte ha⟩
    · exact .inr ⟨_, he, fun _ => detailPossible_byte hb⟩
  | add a b =>
    obtain ⟨r, q, ha, hb, he⟩ | ⟨ha, he⟩ | ⟨-, hb, he⟩ := execAdd_cases a b s
    · exact .inl ⟨_, .add r q ha hb, he⟩
    · exact .inr ⟨_, he, fun _ => detailPossible_byte ha⟩
    · exact .inr ⟨_, he, fun _ => detailPossible_byte hb⟩
  | push a =>
    obtain ⟨r, ha, hsp, he⟩ | ⟨ha, he⟩ | ⟨-, -, he⟩ := execPush_cases a s
    · exact .inl ⟨_, .push r ha hsp, he⟩
    · exact .inr ⟨_, he, fun _ => detailPossible_byte ha⟩
    · exact .inr ⟨_, he, fun _ => .inl rfl⟩
  | pop a =>
    obtain ⟨r, ha, hsp, he⟩ | ⟨ha, he⟩ | ⟨_, -, -, he⟩ := execPop_cases a s
    · exact .inl ⟨_, .pop r ha hsp, he⟩
    · exact .inr ⟨_, he, fun _ => detailPossible_byte ha⟩
    · exact .inr ⟨_, he, fun _ => .inr (by decide)⟩
  | call a =>
    obtain ⟨r, ha, hsp, hpc, he⟩ | ⟨ha, he⟩ | ⟨-, -, he⟩ | ⟨-, -, hpc, he⟩ := execCall_cases a s
    · exact .inl ⟨_, .call r ha hsp hpc, he⟩
    · exact .inr ⟨_, he, fun _ => detailPossible_byte ha⟩
    · exact .inr ⟨_, he, fun _ => .inl rfl⟩
    · refine .inr ⟨_, he, fun hlen => .inr ?_⟩
      have hlen : s.pc + 2 ≤ 256 := hlen
      omega
  | ret =>
    obtain ⟨hsp, he⟩ | ⟨-, he⟩ := execRet_cases s
    · exact .inl ⟨_, .ret hsp, he⟩
    · exact .inr ⟨_, he, fun _ => .inr (by decide)⟩
  | hlt => exact .inl ⟨_, .hlt, execHlt_eq s⟩

/-- A byte names at most one register. -/
theorem regIx_unique {a : Byte} {r q : RegIx} (hr : a.toNat = r.val) (hq : a.toNat = q.val) : r = q :=
  Fin.ext (hr.symm.trans hq)

/-- What completes is what `exec` answers: under a constructor's conditions no error of that instruction applies. -/
theorem Completes.exec_eq {s t : State} {i : Instr} (h : Completes s i t) : exec i s = .next t := by
  cases h with
  | @ldi a b r ha =>
    obtain ⟨q, hq, he⟩ | ⟨hq, -⟩ := execLdi_cases a b s
    · exact regIx_unique hq ha ▸ he
    · omega
  | @prn a r ha =>
    obtain ⟨q, hq, he⟩ | ⟨hq, -⟩ := execPrn_cases a s
    · exact regIx_unique hq ha ▸ he
    · omega
  | @mul a b r q ha hb =>
    obtain ⟨r', q', ha', hb', he⟩ | ⟨ha', -⟩ | ⟨-, hb', -⟩ := execMul_cases a b s
    · exact regIx_unique ha' ha ▸ regIx_unique hb' hb ▸ he
    · omega
    · omega
  | @add a b r q ha hb =>
    obtain ⟨r', q', ha', hb', he⟩ | ⟨ha', -⟩ | ⟨-, hb', -⟩ := execAdd_cases a b s
    · exact regIx_unique ha' ha ▸ regIx_unique hb' hb ▸ he
    · omega
    · omega
  | @push a r ha hsp =>
    obtain ⟨q, hq, -, he⟩ | ⟨hq, -⟩ | ⟨-, hsp', -⟩ := execPush_cases a s
    · exact regIx_unique hq ha ▸ he
    · omega
    · omega
  | @pop a r ha hsp =>
    obtain ⟨q, hq, -, he⟩ | ⟨hq, -⟩ | ⟨q, hq, hsp', -⟩ := execPop_cases a s
    · exact regIx_unique hq ha ▸ he
    · omega
    · rw [regIx_unique hq ha] at hsp'
      omega
  | @call a r ha hsp hpc =>
    obtain ⟨q, hq, -, -, he⟩ | ⟨hq, -⟩ | ⟨-, hsp', -⟩ | ⟨-, -, hpc', -⟩ := execCall_cases a s
    · exact regIx_unique hq ha ▸ he
    · omega
    · omega
    · omega
  | ret hsp =>
    obtain ⟨-, he⟩ | ⟨hsp', -⟩ := execRet_cases s
    · exact he
    · omega
  | hlt => exact execHlt_eq s

/-- A state that `raise` made has failed. -/
@[simp] theorem raise_failed (r : Raise) (s : State) : (raise r s).failed = true := rfl

/-- An instruction whose next state has not failed completes. -/
theorem completes_of_exec {i : Instr} {s t : State} (h : exec i s = .next t) (ht : t.failed = false) :
    Completes s i t := by
  obtain ⟨u, hu, he⟩ | ⟨d, he, -⟩ := exec_cases i s
  · obtain rfl : t = u := by simpa using h.symm.trans he
    exact hu
  · obtain rfl : t = raise ⟨.outOfRangeAddress, d⟩ s := by simpa using h.symm.trans he
    simp at ht

/-! ### What a completed instruction leaves unchanged -/

/-- A push changes no register but SP. -/
theorem pushed_reg_other (s : State) {v : Byte} {r : RegIx} (h : r ≠ 7) : (pushed s v).reg r = s.reg r := by
  rw [pushed_reg, if_neg h]

section
variable {s t : State} {i : Instr}

/-- Only the registers of R19's written column change. -/
theorem Completes.reg_kept (h : Completes s i t) {r : RegIx} (hr : r.val ∉ writtenRegs i) : t.reg r = s.reg r := by
  cases h with
  | ldi q ha => exact State.reg_writeReg_other _ _ _ fun e => hr (by simp [writtenRegs, ha, e])
  | prn => rfl
  | mul q _ ha => exact State.reg_writeReg_other _ _ _ fun e => hr (by simp [writtenRegs, ha, e])
  | add q _ ha => exact State.reg_writeReg_other _ _ _ fun e => hr (by simp [writtenRegs, ha, e])
  | push => rw [State.reg_setPc, pushed_reg_other s fun e => hr (by simp [writtenRegs, e])]
  | pop q ha =>
    calc _ = (s.writeReg q (s.mem.read s.sp.toNat).toNat).reg r :=
          State.reg_writeReg_other _ _ _ fun e => hr (by simp [writtenRegs, e])
      _ = s.reg r := State.reg_writeReg_other _ _ _ fun e => hr (by simp [writtenRegs, ha, e])
  | call => rw [State.reg_setPc, pushed_reg_other s fun e => hr (by simp [writtenRegs, e])]
  | ret => exact State.reg_writeReg_other _ _ _ fun e => hr (by simp [writtenRegs, e])
  | hlt => rfl

/-- Memory is read and not written, except by PUSH and CALL (R44). -/
theorem Completes.mem_kept (h : Completes s i t) (hpush : ∀ a, i ≠ .push a) (hcall : ∀ a, i ≠ .call a) :
    t.mem = s.mem := by
  cases h with
  | push => exact absurd rfl (hpush _)
  | call => exact absurd rfl (hcall _)
  | ldi | prn | mul | add | pop | ret | hlt => rfl

/-- PUSH and CALL decrement SP and store one byte where it then points (R117, R130). -/
theorem Completes.mem_pushed (h : Completes s i t) (hi : ∃ a, i = .push a ∨ i = .call a) :
    0 < s.sp.toNat ∧ ∃ v, t.mem = s.mem.write (s.sp.toNat - 1) v := by
  cases h with
  | push _ _ hsp => exact ⟨hsp, _, rfl⟩
  | call _ _ hsp => exact ⟨hsp, _, rfl⟩
  | ldi | prn | mul | add | pop | ret | hlt => simp at hi

/-- Only PRN emits. -/
theorem Completes.out_kept (h : Completes s i t) (hprn : ∀ a, i ≠ .prn a) : t.out = s.out := by
  cases h with
  | prn => exact absurd rfl (hprn _)
  | ldi | mul | add | push | pop | call | ret | hlt => rfl

/-- Only HLT changes the status. -/
theorem Completes.status_kept (h : Completes s i t) (hhlt : i ≠ .hlt) : t.status = s.status := by
  cases h with
  | hlt => exact absurd rfl hhlt
  | ldi | prn | mul | add | push | pop | call | ret => rfl

end

end Sys2Proof.Machine
end

section
/-! SUPPORT. Non-interference (R19): states that agree on what an instruction reads lead to states that agree on what
it writes. `AgreeOn` is that agreement, with one rule per update of the state. -/

namespace Sys2Proof.Machine

/-- Two states alike in memory, pc, status, output and the registers numbered in `ds`. -/
structure AgreeOn (ds : List Nat) (s s' : State) : Prop where
  mem : s'.mem = s.mem
  pc : s'.pc = s.pc
  status : s'.status = s.status
  out : s'.out = s.out
  reg : ∀ r : RegIx, r.val ∈ ds → s'.reg r = s.reg r

namespace AgreeOn

variable {ds : List Nat} {s s' : State}

theorem sp (h : AgreeOn ds s s') (h7 : 7 ∈ ds) : s'.sp = s.sp := h.reg 7 h7

theorem mono {es : List Nat} (h : AgreeOn ds s s') (hes : es ⊆ ds) : AgreeOn es s s' :=
  ⟨h.mem, h.pc, h.status, h.out, fun r hr => h.reg r (hes hr)⟩

theorem setPc (h : AgreeOn ds s s') {n n' : Nat} (hn : n' = n) : AgreeOn ds (s.setPc n) (s'.setPc n') :=
  ⟨h.mem, hn, h.status, h.out, h.reg⟩

theorem emit (h : AgreeOn ds s s') {v v' : Byte} (hv : v' = v) : AgreeOn ds (s.emit v) (s'.emit v') :=
  ⟨h.mem, h.pc, h.status, by rw [State.out_emit, State.out_emit, h.out, hv], h.reg⟩

theorem halt (h : AgreeOn ds s s') : AgreeOn ds { s with status := .halted } { s' with status := .halted } :=
  ⟨h.mem, h.pc, rfl, h.out, h.reg⟩

/-- Writing one value to a register makes the states agree on that register too. -/
theorem writeReg (h : AgreeOn ds s s') (r : RegIx) {v v' : Int} (hv : v' = v) :
    AgreeOn (r.val :: ds) (s.writeReg r v) (s'.writeReg r v') := by
  refine ⟨h.mem, h.pc, h.status, h.out, fun q hq => ?_⟩
  rw [State.reg_writeReg, State.reg_writeReg, hv]
  split
  · rfl
  · next hne => exact h.reg q ((List.mem_cons.1 hq).resolve_left fun e => hne (Fin.ext e))

/-- The ALU writes its destination from its two operand registers. -/
theorem aluApply (h : AgreeOn ds s s') (op : AluOp) {r q : RegIx} (hr : r.val ∈ ds) (hq : q.val ∈ ds) :
    AgreeOn (r.val :: ds) (aluApply op r q s) (aluApply op r q s') :=
  h.writeReg r (by rw [h.reg r hr, h.reg q hq])

theorem pushed (h : AgreeOn ds s s') (h7 : 7 ∈ ds) {v v' : Byte} (hv : v' = v) :
    AgreeOn (7 :: ds) (pushed s v) (pushed s' v') := by
  have hw := h.writeReg 7 (congrArg (fun b : Byte => ((b.toNat - 1 : Nat) : Int)) (h.sp h7))
  exact ⟨by rw [pushed_mem, pushed_mem, h.mem, h.sp h7, hv], h.pc, h.status, h.out, hw.reg⟩

end AgreeOn

/-- Where a second state agrees on what an instruction reads, an instruction that completes in the first completes in
it too, and the states they lead to agree on what it writes. -/
theorem Completes.noninterference {s s' t : State} {i : Instr} (h : Completes s i t)
    (ha : AgreeOn (readRegs i) s s') : ∃ t', Completes s' i t' ∧ AgreeOn (writtenRegs i) t t' := by
  have hpc (n : Nat) : s'.pc + n = s.pc + n := by rw [ha.pc]
  cases h with
  | @ldi a b r hr =>
    refine ⟨_, .ldi r hr, AgreeOn.setPc ?_ (hpc 3)⟩
    exact (ha.writeReg r rfl).mono (by simp [writtenRegs, hr])
  | @prn a r hr =>
    refine ⟨_, .prn r hr, AgreeOn.setPc ?_ (hpc 2)⟩
    exact (ha.mono (List.nil_subset _)).emit (ha.reg r (by simp [readRegs, hr]))
  | @mul a b r q hr hq =>
    refine ⟨_, .mul r q hr hq, AgreeOn.setPc ?_ (hpc 3)⟩
    exact (ha.aluApply .multiply (by simp [readRegs, hr]) (by simp [readRegs, hq])).mono (by simp [writtenRegs, hr])
  | @add a b r q hr hq =>
    refine ⟨_, .add r q hr hq, AgreeOn.setPc ?_ (hpc 3)⟩
    exact (ha.aluApply .add (by simp [readRegs, hr]) (by simp [readRegs, hq])).mono (by simp [writtenRegs, hr])
  | @push a r hr hsp =>
    have h7 : s'.sp = s.sp := ha.sp (by simp [readRegs])
    have hw := ha.writeReg 7 (v := (s.sp.toNat - 1 : Nat)) (v' := (s'.sp.toNat - 1 : Nat)) (by rw [h7])
    refine ⟨_, .push r hr (by rwa [h7]), AgreeOn.setPc ?_ (hpc 2)⟩
    exact (ha.pushed (by simp [readRegs]) (hw.reg r (by simp [readRegs, hr]))).mono (by simp [writtenRegs])
  | @pop a r hr hsp =>
    have hw := ha.writeReg r (v := (s.mem.read s.sp.toNat).toNat) (v' := (s'.mem.read s'.sp.toNat).toNat)
      (by rw [ha.mem, ha.sp (by simp [readRegs])])
    have h7 := hw.sp (by simp [readRegs])
    refine ⟨_, .pop r hr (by rwa [h7]), AgreeOn.setPc ?_ (hpc 2)⟩
    exact (hw.writeReg 7 (by rw [h7])).mono (by simp [writtenRegs, hr])
  | @call a r hr hsp hle =>
    have h7 : s'.sp = s.sp := ha.sp (by simp [readRegs])
    have hw := ha.pushed (by simp [readRegs]) (congrArg (BitVec.ofNat 8) (hpc 2))
    refine ⟨_, .call r hr (by rwa [h7]) (by rwa [ha.pc]), AgreeOn.setPc ?_ ?_⟩
    · exact hw.mono (by simp [writtenRegs])
    · rw [hw.reg r (by simp [readRegs, hr])]
  | ret hsp =>
    have h7 : s'.sp = s.sp := ha.sp (by simp [readRegs])
    refine ⟨_, .ret (by rwa [h7]), AgreeOn.setPc ?_ (by rw [ha.mem, h7])⟩
    exact (ha.writeReg 7 (by rw [h7])).mono (by simp [writtenRegs])
  | hlt => exact ⟨_, .hlt, ha.halt⟩

end Sys2Proof.Machine
end

section
/-! SUPPORT. What one step can do, said once (`step_cases`): the instruction whose encoding lies at pc completes, or an
error of R146 and R148 is taken. -/

namespace Sys2Proof

/-- The encoding of a dispatched instruction is its opcode and the operand bytes the opcode declares. -/
theorem encode_of_lookup {op : Byte} {build : Byte → Byte → Instr} (h : lookup opcodeMap op = some build)
    (a b : Byte) : encode (build a b) = [op, a, b].take (operandCount op + 1) := by
  rcases lookup_cases op with ⟨ho, hb⟩ | ⟨ho, hb⟩ | ⟨ho, hb⟩ | ⟨ho, hb⟩ | ⟨ho, hb⟩ | ⟨ho, hb⟩ | ⟨ho, hb⟩ |
    ⟨ho, hb⟩ | ⟨ho, hb⟩ | ⟨-, hb⟩ <;> rw [h] at hb <;> cases hb <;> subst ho <;> rfl

/-- Only the nine opcodes of the map are dispatched. -/
theorem not_mem_values_of_lookup {op : Byte} (h : lookup opcodeMap op = none) : op ∉ opcodeMap.values := by
  intro hop
  simp only [Config.OpcodeMap.values, List.mem_cons, List.not_mem_nil, or_false] at hop
  rcases hop with rfl | rfl | rfl | rfl | rfl | rfl | rfl | rfl | rfl <;> cases h

namespace Machine

/-- What is fetched lies below address 256 and is, byte for byte, the encoding of the instruction (R55, R78). -/
theorem encode_at_pc_of_fetchInstr {s : State} {i : Instr} (h : fetchInstr s = .ok i) :
    s.pc + (encode i).length ≤ 256 ∧
      (List.range (encode i).length).map (fun k => s.mem.read (s.pc + k)) = encode i := by
  by_cases hpc : 255 < s.pc
  · cases (fetchInstr_past_top hpc).symm.trans h
  have hpc : s.pc ≤ 255 := by omega
  cases hl : lookup opcodeMap (s.mem.read s.pc) with
  | none => cases (fetchInstr_unknown hpc hl).symm.trans h
  | some build =>
    obtain ⟨hend, hf⟩ | ⟨-, hf⟩ := fetchInstr_known hpc hl
    · cases hf.symm.trans h
      rw [encode_of_lookup hl]
      obtain ⟨hn, -⟩ | ⟨hn, -⟩ | hn := lookup_build hl <;> rw [hn] at hend ⊢
      · exact ⟨by simp; omega, rfl⟩
      · exact ⟨by simp; omega, rfl⟩
      · exact ⟨by simp; omega, rfl⟩
    · cases hf.symm.trans h

/-- A failed fetch raises a possible error record (R76 to R78): the pc past the top, a byte that is no opcode, or the
address 256 of a missing operand. -/
theorem recordPossible_of_fetchInstr {s : State} {r : Raise} (hs : s.pc ≤ 258) (h : fetchInstr s = .error r) :
    RecordPossible r.kind s.pc r.detail := by
  by_cases hpc : 255 < s.pc
  · cases (fetchInstr_past_top hpc).symm.trans h
    exact .inr ⟨by omega, hs, rfl⟩
  have hpc : s.pc ≤ 255 := by omega
  cases hl : lookup opcodeMap (s.mem.read s.pc) with
  | none =>
    cases (fetchInstr_unknown hpc hl).symm.trans h
    exact ⟨hpc, _, not_mem_values_of_lookup hl, rfl⟩
  | some build =>
    obtain ⟨-, hf⟩ | ⟨-, hf⟩ := fetchInstr_known hpc hl
    · cases hf.symm.trans h
    · cases hf.symm.trans h
      exact .inl ⟨hpc, .inr (by decide)⟩

/-- An instruction has an opcode byte. -/
theorem encode_length_pos (i : Instr) : 0 < (encode i).length := by
  cases i <;> exact Nat.succ_pos _

/-- Every step of the engine begins Running, and completes the instruction whose encoding lies at pc or takes an error
that can occur. -/
theorem step_cases {s t : State} (h : step s = .next t) :
    s.status = .running ∧
      ((∃ i, s.at (encode i) ∧ Completes s i t) ∨
        ∃ r, t = raise r s ∧ (s.pc ≤ 258 → RecordPossible r.kind s.pc r.detail)) := by
  cases hs : s.status with
  | halted => simp [step, hs] at h
  | error k p d => simp [step, hs] at h
  | running =>
    refine ⟨rfl, ?_⟩
    obtain ⟨i, hf, he⟩ | ⟨r, hf, he⟩ := step_running hs
    · obtain ⟨hlen, hbytes⟩ := encode_at_pc_of_fetchInstr hf
      obtain ⟨u, hu, he'⟩ | ⟨d, he', hd⟩ := exec_cases i s
      · cases h.symm.trans (he.trans he')
        exact .inl ⟨i, ⟨hs, hlen, hbytes⟩, hu⟩
      · cases h.symm.trans (he.trans he')
        have := encode_length_pos i
        exact .inr ⟨_, rfl, fun _ => .inl ⟨by omega, hd hlen⟩⟩
    · cases h.symm.trans he
      exact .inr ⟨r, rfl, fun hpc => recordPossible_of_fetchInstr hpc hf⟩

end Machine
end Sys2Proof
end

section
/-! SUPPORT. The statements about the state (10_state.md): reset and the invariant, the canonical form of memory, the
frames and R19's table, and who reaches Halted and who emits. -/

namespace Sys2Proof.Machine

/-! ### Canonical memory -/

/-- A read other than that of an unlisted address comes from a listed cell. -/
theorem Memory.mem_of_read {m : Memory} {a : Nat} (h : m.read a ≠ Memory.unlisted) : (a, m.read a) ∈ m := by
  induction m with
  | nil => exact absurd rfl h
  | cons c rest ih =>
    obtain ⟨b, w⟩ := c
    by_cases hb : b = a
    · simp [Memory.read, hb]
    · simp only [Memory.read, if_neg hb] at h ⊢
      exact List.mem_cons_of_mem _ (ih h)

/-- Where addresses rise, a listed cell is what its address reads as. -/
theorem Memory.read_of_mem {m : Memory} (hm : m.Pairwise fun c d => c.1 < d.1) {c : Host.Cell} (hc : c ∈ m) :
    m.read c.1 = c.2 := by
  induction m with
  | nil => cases hc
  | cons d rest ih =>
    obtain ⟨hd, hrest⟩ := List.pairwise_cons.1 hm
    obtain rfl | hc := List.mem_cons.1 hc
    · simp [Memory.read]
    · rw [Memory.read, if_neg (hd c hc).ne]
      exact ih hrest hc

/-- Every cell of a canonical memory is a cell of any memory that reads the same below 256. -/
theorem Memory.subset_of_reads {m n : Memory} (hm : m.wf) (h : ∀ a : Nat, a ≤ 255 → m.read a = n.read a) :
    m ⊆ n := by
  intro c hc
  obtain ⟨hlt, hne⟩ := hm.2 c hc
  have hread : n.read c.1 = c.2 := (h c.1 (Nat.le_of_lt_succ hlt)).symm.trans (Memory.read_of_mem hm.1 hc)
  have hmem := Memory.mem_of_read (hread ▸ hne)
  rwa [hread] at hmem

/-- Settles O10: the reads fix which cells are listed, and rising addresses fix their order. -/
theorem equalReadsGiveEqualMemory : Obligations.EqualReadsGiveEqualMemory := by
  intro m n hm hn h
  have hmn : m ⊆ n := Memory.subset_of_reads hm h
  have hnm : n ⊆ m := Memory.subset_of_reads hn fun a ha => (h a ha).symm
  have hperm : m.Perm n := (List.perm_ext_iff_of_nodup (hm.1.imp fun hlt e => hlt.ne (congrArg Prod.fst e))
    (hn.1.imp fun hlt e => hlt.ne (congrArg Prod.fst e))).2 fun c => ⟨fun hc => hmn hc, fun hc => hnm hc⟩
  exact hperm.eq_of_pairwise (fun c d _ _ hcd hdc => absurd hcd hdc.asymm) hm.1 hn.1

/-! ### Reset and the invariant -/

/-- Settles O1: no cell is listed, and each register is a literal of the reset state. -/
theorem resetGivesTheConstructionTable : Obligations.ResetGivesTheConstructionTable :=
  ⟨Memory.read_nil, by decide, by decide, rfl, rfl, rfl, rfl⟩

/-- Settles O2: the empty list of cells is canonical, and the status is Running. -/
theorem resetMeetsTheInvariant : Obligations.ResetMeetsTheInvariant where
  mem := ⟨List.Pairwise.nil, fun _ hc => nomatch hc⟩
  pc := Nat.zero_le _
  record _ _ _ h := nomatch h

/-- Taking a possible error keeps the invariant: what memory then holds is unspecified and still canonical. -/
theorem raise_inv {s : State} {r : Raise} (hpc : s.pc ≤ 258) (hr : RecordPossible r.kind s.pc r.detail) :
    (raise r s).Inv where
  mem := Memory.ofFun_wf _
  pc := hpc
  record k p d h := by cases h; exact ⟨rfl, hr⟩

section
variable {s t : State} {i : Instr}

/-- PUSH and CALL store one byte inside the 256 cells; nothing else touches memory. -/
theorem Completes.mem_wf (h : Completes s i t) (hm : s.mem.wf) : t.mem.wf := by
  by_cases hi : ∃ a, i = .push a ∨ i = .call a
  · obtain ⟨-, v, hv⟩ := h.mem_pushed hi
    have := s.sp.isLt
    exact hv ▸ Memory.write_wf hm (by simp only [Config.memSize]; omega) v
  · rwa [h.mem_kept (fun a e => hi ⟨a, .inl e⟩) fun a e => hi ⟨a, .inr e⟩]

/-- An advance goes to the byte after the instruction (R79), CALL and RET to a byte's value, and HLT stays. -/
theorem Completes.pc_le (h : Completes s i t) (hlen : s.pc + (encode i).length ≤ 256) : t.pc ≤ 256 := by
  cases h with
  | ldi | prn | mul | add | push | pop => exact hlen
  | call | ret => exact (BitVec.isLt _).le
  | hlt => exact (Nat.le_add_right _ _).trans hlen

/-- From a Running state no error record appears: HLT halts, and every other instruction keeps the status. -/
theorem Completes.status_running_or_halted (h : Completes s i t) (hs : s.status = .running) :
    t.status = .running ∨ i = .hlt ∧ t.status = .halted := by
  by_cases hi : i = .hlt
  · subst hi; cases h; exact .inr ⟨rfl, rfl⟩
  · exact .inl ((h.status_kept hi).trans hs)

end

/-- Settles O3: an error that can occur keeps the invariant (`raise_inv`), and a completed instruction keeps the
canonical form, leaves pc at most 256 and records no error. -/
theorem stepKeepsTheInvariant : Obligations.StepKeepsTheInvariant := by
  intro s t hinv h
  obtain ⟨hs, ⟨i, ⟨-, hlen, -⟩, hc⟩ | ⟨r, rfl, hr⟩⟩ := step_cases h
  · refine ⟨hc.mem_wf hinv.mem, (hc.pc_le hlen).trans (by decide), fun k p d hst => ?_⟩
    obtain hst' | ⟨-, hst'⟩ := hc.status_running_or_halted hs <;> cases hst'.symm.trans hst
  · exact raise_inv hinv.pc (hr hinv.pc)

/-! ### Frames and R19's table -/

/-- Settles O24: LDI, PRN, MUL and ADD are neither PUSH nor CALL nor HLT. -/
theorem frameOfRegisterInstructions : Obligations.FrameOfRegisterInstructions := by
  intro i s t hi h ht
  have hc := completes_of_exec h ht
  have hpush : ∀ a, i ≠ .push a := by rintro a rfl; simp at hi
  have hcall : ∀ a, i ≠ .call a := by rintro a rfl; simp at hi
  have hhlt : i ≠ .hlt := by rintro rfl; simp at hi
  exact ⟨fun _ => hc.reg_kept, fun x => by rw [hc.mem_kept hpush hcall], hc.status_kept hhlt, hc.out_kept⟩

/-- Settles O25: POP and RET are neither PUSH nor CALL, neither HLT nor PRN. -/
theorem frameOfStackLoads : Obligations.FrameOfStackLoads := by
  intro i s t hi h ht
  have hc := completes_of_exec h ht
  have hpush : ∀ a, i ≠ .push a := by rintro a rfl; simp at hi
  have hcall : ∀ a, i ≠ .call a := by rintro a rfl; simp at hi
  have hhlt : i ≠ .hlt := by rintro rfl; simp at hi
  have hprn : ∀ a, i ≠ .prn a := by rintro a rfl; simp at hi
  exact ⟨fun _ => hc.reg_kept, fun x => by rw [hc.mem_kept hpush hcall], hc.status_kept hhlt, hc.out_kept hprn⟩

/-- Where `SPDec` succeeds it leaves SP one lower. -/
theorem sp_of_spDec {s s1 : State} (h : spDec s = .ok s1) : s1.sp.toNat = s.sp.toNat - 1 := by
  have := s.sp.isLt
  obtain ⟨-, he⟩ | ⟨-, he⟩ := spDec_cases s
  · cases h.symm.trans he
    rw [sp_writeReg_seven, toNat_ofNat_of_le (by omega)]
  · cases h.symm.trans he

/-- Settles O26: PUSH and CALL complete where SP is above 0, so `SPDec` succeeds and leaves the address stored to. -/
theorem frameOfStackStores : Obligations.FrameOfStackStores := by
  intro i s t hi h ht
  have hc := completes_of_exec h ht
  have hhlt : i ≠ .hlt := by rintro rfl; simp at hi
  have hprn : ∀ a, i ≠ .prn a := by rintro a rfl; simp at hi
  have hw : writtenRegs i = [7] := by obtain ⟨a, rfl | rfl⟩ := hi <;> rfl
  obtain ⟨hsp, v, hv⟩ := hc.mem_pushed hi
  refine ⟨fun r hr => hc.reg_kept ?_, fun s1 hs1 x hx => ?_, ?_, hc.status_kept hhlt, hc.out_kept hprn⟩
  · rw [hw, List.mem_singleton]
    exact fun e => hr (Fin.ext e)
  · rw [hv, Memory.read_write_other _ (sp_of_spDec hs1 ▸ hx)]
  · obtain ⟨-, he⟩ | ⟨h0, -⟩ := spDec_cases s
    · exact ⟨_, he⟩
    · omega

/-- Settles O27: the written column is the frame, the read column is non-interference. -/
theorem registersReadAndWrittenTable : Obligations.RegistersReadAndWrittenTable := by
  intro i s s' t t' h h' ht hmem hpc hstatus hout hreg
  have hc := completes_of_exec h ht
  obtain ⟨u, hu, ha⟩ := hc.noninterference ⟨hmem, hpc, hstatus, hout, hreg⟩
  cases h'.symm.trans hu.exec_eq
  have hfailed : t'.failed = t.failed := by rw [State.failed, State.failed, ha.status]
  exact ⟨fun _ => hc.reg_kept, hfailed.trans ht, ha.pc, ha.mem, ha.status, ha.out, ha.reg⟩

/-! ### Halting and emitting -/

/-- Settles O37: an error is no halt, and of the completed instructions only HLT leaves Running. -/
theorem onlyHltReachesHalted : Obligations.OnlyHltReachesHalted := by
  intro s t h ht
  obtain ⟨hs, ⟨i, ⟨-, hlen, hbytes⟩, hc⟩ | ⟨r, rfl, -⟩⟩ := step_cases h
  · obtain hst | ⟨rfl, -⟩ := hc.status_running_or_halted hs
    · cases hst.symm.trans ht
    · have hop : s.mem.read s.pc = 0x01#8 := (List.cons.inj hbytes).1
      cases hc
      exact ⟨hs, Nat.le_of_lt_succ hlen, hop, rfl, rfl, rfl, rfl⟩
  · cases ht

/-- Settles O38: an error keeps the output, and so does every completed instruction but PRN. -/
theorem onlyPrnAppendsToTheOutput : Obligations.OnlyPrnAppendsToTheOutput := by
  intro s t h hne
  obtain ⟨hs, ⟨i, ⟨-, -, hbytes⟩, hc⟩ | ⟨r, rfl, -⟩⟩ := step_cases h
  · obtain ⟨a, rfl⟩ : ∃ a, i = .prn a := by
      by_contra hprn
      exact hne (hc.out_kept fun a e => hprn ⟨a, e⟩)
    cases hc with
    | prn r ha =>
      obtain ⟨hop, hrest⟩ := List.cons.inj hbytes
      have hoperand : s.mem.read (s.pc + 1) = a := (List.cons.inj hrest).1
      exact ⟨hop, by simp [State.failed, hs], r, by rw [hoperand, ha], rfl⟩
  · exact absurd rfl hne

end Sys2Proof.Machine
end

section
/-! SUPPORT. The statements about memory (20_memory.md): who writes it, and that code and stack share it. Before them,
the step from the bytes at pc: the meaning of the instruction they encode (`step_of_at`), PUSH and HLT among them, or
the error of a byte that is no opcode (`step_raises_unknown`). -/

namespace Sys2Proof

/-- Every instruction is what dispatch builds from some opcode and operand bytes. -/
theorem exists_lookup_build (i : Instr) :
    ∃ op build a b, lookup opcodeMap op = some build ∧ build a b = i := by
  cases i with
  | ldi a b => exact ⟨opcodeMap.ldi, _, a, b, rfl, rfl⟩
  | prn a => exact ⟨opcodeMap.prn, fun a _ => .prn a, a, 0#8, rfl, rfl⟩
  | mul a b => exact ⟨opcodeMap.mul, _, a, b, rfl, rfl⟩
  | add a b => exact ⟨opcodeMap.add, _, a, b, rfl, rfl⟩
  | push a => exact ⟨opcodeMap.push, fun a _ => .push a, a, 0#8, rfl, rfl⟩
  | pop a => exact ⟨opcodeMap.pop, fun a _ => .pop a, a, 0#8, rfl, rfl⟩
  | call a => exact ⟨opcodeMap.call, fun a _ => .call a, a, 0#8, rfl, rfl⟩
  | ret => exact ⟨opcodeMap.ret, fun _ _ => .ret, 0#8, 0#8, rfl, rfl⟩
  | hlt => exact ⟨opcodeMap.hlt, fun _ _ => .hlt, 0#8, 0#8, rfl, rfl⟩

/-- A byte outside the map is not dispatched (R63). -/
theorem lookup_of_not_mem_values {op : Byte} (h : op ∉ opcodeMap.values) : lookup opcodeMap op = none := by
  simp only [Config.OpcodeMap.values, List.mem_cons, List.not_mem_nil, or_false, not_or] at h
  simp [lookup, h]

namespace Machine

/-! ### The step from the bytes at pc -/

/-- Fetching where an instruction's encoding lies gives that instruction (R55, R78). -/
theorem fetchInstr_of_at {s : State} {i : Instr} (h : s.at (encode i)) : fetchInstr s = .ok i := by
  obtain ⟨op, build, a, b, hl, rfl⟩ := exists_lookup_build i
  obtain ⟨-, hlen, hbytes⟩ := h
  rw [encode_of_lookup hl] at hlen hbytes
  have hcount : operandCount op ≤ 2 := by
    obtain ⟨hn, -⟩ | ⟨hn, -⟩ | hn := lookup_build hl <;> omega
  rw [List.length_take_of_le (Nat.succ_le_succ hcount)] at hlen hbytes
  obtain rfl : s.mem.read s.pc = op := by
    rw [List.range_succ_eq_map] at hbytes
    exact (List.cons.inj hbytes).1
  obtain ⟨-, hf⟩ | ⟨hpast, -⟩ := fetchInstr_known (by omega) hl
  · rw [hf]
    obtain ⟨-, hb⟩ | ⟨hn, hb⟩ | hn := lookup_build hl
    · rw [hb _ _ a b]
    · rw [hn] at hbytes
      obtain ⟨ha : s.mem.read (s.pc + 1) = a, -⟩ := List.cons.inj (List.cons.inj hbytes).2
      rw [ha, hb a _ b]
    · rw [hn] at hbytes
      obtain ⟨ha : s.mem.read (s.pc + 1) = a, hrest⟩ := List.cons.inj (List.cons.inj hbytes).2
      obtain ⟨hb : s.mem.read (s.pc + 2) = b, -⟩ := List.cons.inj hrest
      rw [ha, hb]
  · omega

/-- Where an instruction's encoding lies at pc, the step is that instruction's meaning (R81). -/
theorem step_of_at {s : State} {i : Instr} (h : s.at (encode i)) : step s = exec i s := by
  simp [step, h.1, fetchInstr_of_at h]

/-- Taking an error from `s` is an error taken from `s`, with the raise's kind and detail. -/
theorem raises_raise (r : Raise) (s : State) : Raises (.next (raise r s)) s r.kind r.detail :=
  ⟨_, rfl, rfl, rfl⟩

/-- A byte at pc that is no opcode is raised (R77, R148). -/
theorem step_raises_unknown {s : State} {op : Byte} (hs : s.status = .running) (hpc : s.pc ≤ 255)
    (hread : s.mem.read s.pc = op) (hop : op ∉ opcodeMap.values) :
    Raises (step s) s .unknownInstruction op.toNat := by
  subst hread
  have hstep : step s = .next (raise ⟨.unknownInstruction, (s.mem.read s.pc).toNat⟩ s) := by
    simp [step, hs, fetchInstr_unknown hpc (lookup_of_not_mem_values hop)]
  exact hstep ▸ raises_raise _ s

/-- The byte of HLT at pc halts, and nothing else changes (R134). -/
theorem step_halts {s : State} (hs : s.status = .running) (hpc : s.pc ≤ 255) (hread : s.mem.read s.pc = 0x01#8) :
    step s = .next { s with status := .halted } := by
  have hat : s.at (encode .hlt) := ⟨hs, Nat.succ_le_succ hpc, congrArg (fun op => [op]) hread⟩
  rw [step_of_at hat, Completes.hlt.exec_eq]

/-- PUSH of a register other than R7 pushes that register's value (R117). -/
theorem step_push_of_at {s : State} {a : Byte} {r : RegIx} (hat : s.at [0x45#8, a]) (ha : a.toNat = r.val)
    (hr : r ≠ 7) (hsp : 0 < s.sp.toNat) : step s = .next ((pushed s (s.reg r)).setPc (s.pc + 2)) := by
  rw [step_of_at (i := .push a) hat, (Completes.push r ha hsp).exec_eq, State.reg_writeReg_other _ _ _ hr]

/-! ### The statements -/

/-- Settles O39: of the completed instructions only PUSH and CALL change memory, each the one cell below SP. -/
theorem onlyPushAndCallWriteMemory : Obligations.OnlyPushAndCallWriteMemory := by
  intro s t a h ht hne
  obtain ⟨-, ⟨i, ⟨-, -, hbytes⟩, hc⟩ | ⟨r, rfl, -⟩⟩ := step_cases h
  · have hi : ∃ b, i = .push b ∨ i = .call b := by
      by_contra hi
      exact hne (by rw [hc.mem_kept (fun b e => hi ⟨b, .inl e⟩) fun b e => hi ⟨b, .inr e⟩])
    obtain ⟨hsp, v, hv⟩ := hc.mem_pushed hi
    have ha : a = s.sp.toNat - 1 := by
      by_contra ha
      exact hne (by rw [hv, Memory.read_write_other _ ha])
    have hop : s.mem.read s.pc ∈ [0x45#8, 0x50#8] := by
      obtain ⟨b, rfl | rfl⟩ := hi
      · have hread : s.mem.read s.pc = 0x45#8 := (List.cons.inj hbytes).1
        simp [hread]
      · have hread : s.mem.read s.pc = 0x50#8 := (List.cons.inj hbytes).1
        simp [hread]
    exact ⟨hop, by omega⟩
  · cases ht

/-- Settles O41: the PUSH stores at SP minus 1, which is the pc it leaves, and the next step fetches there. -/
theorem storedByteIsFetchedNext : Obligations.StoredByteIsFetchedNext := by
  intro s a r hat ha hr hsp
  have hlt := s.sp.isLt
  have hpc : s.pc + 2 ≤ 255 := by omega
  have hread : (pushed s (s.reg r)).mem.read (s.pc + 2) = s.reg r := by
    rw [pushed_mem, show s.sp.toNat - 1 = s.pc + 2 by omega, Memory.read_write_same]
  refine ⟨_, step_push_of_at hat ha hr (by omega), hread, fun hhlt => ?_, step_raises_unknown hat.1 hpc hread⟩
  exact ⟨_, step_halts hat.1 hpc (hread.trans hhlt), rfl, rfl⟩

end Machine
end Sys2Proof
end

section
/-! SUPPORT. The statements about the encoding (30_encoding.md), sections 1 to 4: under every opcode map that R58
admits, an instruction has one of three formats (`format_of_lookup`), and a list of bytes decodes to an instruction
exactly when it begins with that instruction's encoding. -/

namespace Sys2Proof

/-! ### Opcode maps that R58 admits -/

section
variable {m : Config.OpcodeMap} {op : Byte} {build : Byte → Byte → Instr}

/-- The three formats (R55, R58): with no operand, with operand A, with operands A and B. The opcode declares as many
operands as its instruction has, and is followed by them. -/
theorem format_of_lookup (hm : m.Valid) (h : lookup m op = some build) :
    (operandCount op = 0 ∧ ∃ i, build = (fun _ _ => i) ∧ encodeWith m i = [op]) ∨
      (operandCount op = 1 ∧ ∃ f : Byte → Instr, build = (fun a _ => f a) ∧ ∀ a, encodeWith m (f a) = [op, a]) ∨
      (operandCount op = 2 ∧ ∀ a b, encodeWith m (build a b) = [op, a, b]) := by
  rw [operandCount_eq]
  unfold lookup at h
  split_ifs at h with hop hop hop hop hop hop hop hop hop <;> cases h <;> rw [hop]
  · exact .inr (.inr ⟨congrArg BitVec.toNat hm.ldi, fun _ _ => rfl⟩)
  · exact .inr (.inl ⟨congrArg BitVec.toNat hm.prn, _, rfl, fun _ => rfl⟩)
  · exact .inr (.inr ⟨congrArg BitVec.toNat hm.mul, fun _ _ => rfl⟩)
  · exact .inr (.inr ⟨congrArg BitVec.toNat hm.add, fun _ _ => rfl⟩)
  · exact .inr (.inl ⟨congrArg BitVec.toNat hm.push, _, rfl, fun _ => rfl⟩)
  · exact .inr (.inl ⟨congrArg BitVec.toNat hm.pop, _, rfl, fun _ => rfl⟩)
  · exact .inr (.inl ⟨congrArg BitVec.toNat hm.call, _, rfl, fun _ => rfl⟩)
  · exact .inl ⟨congrArg BitVec.toNat hm.ret, _, rfl, rfl⟩
  · exact .inl ⟨congrArg BitVec.toNat hm.hlt, _, rfl, rfl⟩

/-- No opcode declares more than two operands (R58, R63). -/
theorem operandCount_le_two_of_lookup (hm : m.Valid) (h : lookup m op = some build) : operandCount op ≤ 2 := by
  obtain ⟨hn, -⟩ | ⟨hn, -⟩ | ⟨hn, -⟩ := format_of_lookup hm h <;> omega

/-- Under a valid map every instruction is what dispatch builds from its opcode and operand bytes: the nine values are
distinct, so dispatch passes over every other opcode. -/
theorem exists_lookup_build_of_valid (hm : m.Valid) (i : Instr) :
    ∃ op build a b, lookup m op = some build ∧ build a b = i := by
  have hd := hm.distinct
  simp only [Config.OpcodeMap.values, List.nodup_cons, List.mem_cons, List.not_mem_nil, or_false, not_or] at hd
  cases i with
  | ldi a b => exact ⟨m.ldi, .ldi, a, b, by grind [lookup], rfl⟩
  | prn a => exact ⟨m.prn, fun a _ => .prn a, a, 0#8, by grind [lookup], rfl⟩
  | mul a b => exact ⟨m.mul, .mul, a, b, by grind [lookup], rfl⟩
  | add a b => exact ⟨m.add, .add, a, b, by grind [lookup], rfl⟩
  | push a => exact ⟨m.push, fun a _ => .push a, a, 0#8, by grind [lookup], rfl⟩
  | pop a => exact ⟨m.pop, fun a _ => .pop a, a, 0#8, by grind [lookup], rfl⟩
  | call a => exact ⟨m.call, fun a _ => .call a, a, 0#8, by grind [lookup], rfl⟩
  | ret => exact ⟨m.ret, fun _ _ => .ret, 0#8, 0#8, by grind [lookup], rfl⟩
  | hlt => exact ⟨m.hlt, fun _ _ => .hlt, 0#8, 0#8, by grind [lookup], rfl⟩

/-! ### The decoder on a list of bytes -/

/-- Decoding bytes that begin with an opcode: the operands it declares are read, and the rest begins after them. -/
theorem decodeWith_cons (hl : lookup m op = some build) (bs : List Byte) :
    decodeWith m (op :: bs) =
      ((if 1 ≤ operandCount op then byteOf (op :: bs) 1 else .ok 0#8).bind fun a =>
        (if operandCount op = 2 then byteOf (op :: bs) 2 else .ok 0#8).bind fun b =>
          .ok (build a b, bs.drop (operandCount op))) := by
  have h0 : byteOf (op :: bs) 0 = .ok op := rfl
  rw [decodeWith, decodeFrom_known h0 hl, h0]
  cases (if 1 ≤ operandCount op then byteOf (op :: bs) 1 else .ok 0#8) with
  | error e => rfl
  | ok a => cases (if operandCount op = 2 then byteOf (op :: bs) 2 else .ok 0#8) <;> rfl

/-- Decoding bytes that do not begin with an opcode (R63). -/
theorem decodeWith_unknown (hl : lookup m op = none) (bs : List Byte) :
    decodeWith m (op :: bs) = .error (.unknownOpcode op) := by
  have h0 : byteOf (op :: bs) 0 = .ok op := rfl
  rw [decodeWith, decodeFrom_unknown h0 hl]
  rfl

end

/-- Decode after encode: each format's bytes are read back, and the rest is left. -/
theorem decodeWith_encodeWith {m : Config.OpcodeMap} (hm : m.Valid) (i : Instr) (rest : List Byte) :
    decodeWith m (encodeWith m i ++ rest) = .ok (i, rest) := by
  obtain ⟨op, build, a, b, hl, rfl⟩ := exists_lookup_build_of_valid hm i
  obtain ⟨hn, i, rfl, henc⟩ | ⟨hn, f, rfl, henc⟩ | ⟨hn, henc⟩ := format_of_lookup hm hl
  · rw [henc, List.singleton_append, decodeWith_cons hl, hn]
    rfl
  · rw [henc, List.cons_append, decodeWith_cons hl, hn]
    rfl
  · rw [henc, List.cons_append, decodeWith_cons hl, hn]
    rfl

/-- Encode after decode: what the decoder took off the front is the encoding of what it answered. -/
theorem encodeWith_of_decodeWith {m : Config.OpcodeMap} (hm : m.Valid) {bs rest : List Byte} {i : Instr}
    (h : decodeWith m bs = .ok (i, rest)) : bs = encodeWith m i ++ rest := by
  cases bs with
  | nil => cases h
  | cons op bs =>
    cases hl : lookup m op with
    | none => cases (decodeWith_unknown hl bs).symm.trans h
    | some build =>
      rw [decodeWith_cons hl] at h
      obtain ⟨hn, i, rfl, henc⟩ | ⟨hn, f, rfl, henc⟩ | ⟨hn, henc⟩ := format_of_lookup hm hl <;> rw [hn] at h
      · cases h
        rw [henc]; rfl
      · cases bs with
        | nil => cases h
        | cons a bs =>
          cases h
          rw [henc]; rfl
      · match bs, h with
        | a :: b :: bs, h =>
          cases h
          rw [henc]; rfl

/-! ### The statements -/

/-- Settles O4: dispatch gives the instruction back, and its format the operand bytes and the rest. -/
theorem decodeOfEncodeGivesTheInstruction : Obligations.DecodeOfEncodeGivesTheInstruction :=
  fun _ i rest hm => decodeWith_encodeWith hm i rest

/-- Settles O5: by the format of the dispatched opcode, all the bytes it declares are there and are kept. -/
theorem decodedBytesAreTheEncoding : Obligations.DecodedBytesAreTheEncoding :=
  fun _ _ _ _ hm h => encodeWith_of_decodeWith hm h

/-- Settles O8: the length of each of the three formats. -/
theorem lengthIsOperandCountPlusOne : Obligations.LengthIsOperandCountPlusOne := by
  refine ⟨operandCount_eq, fun m i hm => ?_⟩
  obtain ⟨op, build, a, b, hl, rfl⟩ := exists_lookup_build_of_valid hm i
  have hmax := operandCount_le_two_of_lookup hm hl
  obtain ⟨hn, i, rfl, henc⟩ | ⟨hn, f, rfl, henc⟩ | ⟨hn, henc⟩ := format_of_lookup hm hl
  · exact ⟨op, [], henc, hn.symm, hmax⟩
  · exact ⟨op, [a], henc a, hn.symm, hmax⟩
  · exact ⟨op, [a, b], henc a b, hn.symm, hmax⟩

/-- Settles O6: each word is the encoding of its instruction, with nothing or a byte after it, so it decodes to it. -/
theorem specWordsDecode : Obligations.SpecWordsDecode := by
  have hdecode := decodeWith_encodeWith Tests.opcodeMap_valid
  exact ⟨hdecode (.ldi 0 8) [], hdecode (.prn 5) [], hdecode (.mul 3 1) [], hdecode (.add 0 2) [],
    hdecode (.push 7) [], hdecode (.pop 8) [], hdecode (.call 1) [], hdecode .ret [], hdecode .hlt [0xFF#8]⟩

/-- Settles O7: dispatch answers for the values of the map alone, and none of them declares three operands. -/
theorem exactlyNineOpcodes : Obligations.ExactlyNineOpcodes := by
  refine ⟨Tests.opcodeMap_valid, fun op => ⟨fun h => ?_, fun hop hl => not_mem_values_of_lookup hl hop⟩,
    fun op h3 => ?_⟩
  · by_contra hop
    exact h (lookup_of_not_mem_values hop)
  · cases hl : lookup opcodeMap op with
    | none => rfl
    | some build =>
      have hmax := operandCount_le_two_of_lookup Tests.opcodeMap_valid hl
      rw [operandCount_eq, h3] at hmax
      exact absurd hmax (by decide)

end Sys2Proof
end

section
/-! SUPPORT. The statements about the assembler text (30_encoding.md, section 5): the text of an instruction is a line
that reads back as it (`readsBack_of_text`), listings assemble line by line, and a numeral is read in its base. -/

namespace Sys2Proof.Machine.Asm

/-! ### Words and operands -/

/-- The characters that end a word. -/
def endsWord (c : Char) : Bool := c = ' ' || c = ',' || c = '\n' || c = ';'

/-- A non-empty text none of whose characters ends a word is a word. -/
theorem isWord_of_forall {cs : List Char} (hne : cs ≠ []) (h : ∀ c ∈ cs, endsWord c = false) : IsWord cs :=
  ⟨hne, fun hc => absurd (h _ hc) (by decide), fun hc => absurd (h _ hc) (by decide),
    fun hc => absurd (h _ hc) (by decide), fun hc => absurd (h _ hc) (by decide)⟩

/-- A register's text is a word that is read as that register. -/
theorem isWord_and_registerOf_of_registerText {a : Byte} {t : List Char} (h : registerText a = some t) :
    IsWord t ∧ registerOf t = some a := by
  have hall : ∀ a : Byte, ∀ t ∈ registerText a, IsWord t ∧ registerOf t = some a := by decide
  exact hall a t h

theorem isWord_decimal (b : Byte) : IsWord (decimal b) := by
  revert b; decide

/-- A digit of a base is below it. -/
theorem digitValue_lt {base v : Nat} {c : Char} (h : digitValue base c = some v) : v < base := by
  unfold digitValue at h
  obtain ⟨hlt, hv⟩ := Option.ite_none_right_eq_some.mp h
  exact Option.some.inj hv ▸ hlt

/-- What is read as a register is one of R0 to R7. -/
theorem namesRegister_of_registerOf {cs : List Char} {b : Byte} (h : registerOf cs = some b) :
    namesRegister b = true := by
  unfold registerOf at h
  split at h
  · obtain ⟨v, hv, rfl⟩ := Option.map_eq_some_iff.mp h
    have hlt : v < 8 := digitValue_lt hv
    have hall : ∀ v < 8, namesRegister (BitVec.ofNat 8 v) = true := by decide
    exact hall v hlt
  · cases h

/-! ### The text of an instruction -/

/-- The text is a line of a program and is read as the instruction. -/
def ReadsBack (cs : List Char) (i : Instr) : Prop := IsLine cs ∧ parse cs = some i

theorem readsBack_of_oneRegister {m cs : List Char} {a : Byte} {i : Instr} (hm : IsWord m)
    (hb : ∀ t, registerOf t = some a → build m [t] = some i) (h : oneRegister m a = some cs) : ReadsBack cs i := by
  obtain ⟨t, ht, rfl⟩ := Option.map_eq_some_iff.mp h
  obtain ⟨hw, hr⟩ := isWord_and_registerOf_of_registerText ht
  exact ⟨line_one hm hw, (parse_one hm hw).trans (hb t hr)⟩

theorem readsBack_of_twoRegisters {m cs : List Char} {a b : Byte} {i : Instr} (hm : IsWord m)
    (hb : ∀ t u, registerOf t = some a → registerOf u = some b → build m [t, u] = some i)
    (h : twoRegisters m a b = some cs) : ReadsBack cs i := by
  obtain ⟨t, ht, h⟩ := Option.bind_eq_some_iff.mp h
  obtain ⟨u, hu, rfl⟩ := Option.map_eq_some_iff.mp h
  obtain ⟨hwt, hrt⟩ := isWord_and_registerOf_of_registerText ht
  obtain ⟨hwu, hru⟩ := isWord_and_registerOf_of_registerText hu
  exact ⟨line_two hm hwt hwu, (parse_two hm hwt hwu).trans (hb t u hrt hru)⟩

/-- Every text an instruction has reads back as it (R65). -/
theorem readsBack_of_text {i : Instr} {cs : List Char} (h : text i = some cs) : ReadsBack cs i := by
  cases i with
  | ldi a b =>
    obtain ⟨t, ht, rfl⟩ := Option.map_eq_some_iff.mp h
    obtain ⟨hw, hr⟩ := isWord_and_registerOf_of_registerText ht
    have hm : IsWord ['L', 'D', 'I'] := by decide
    refine ⟨line_two hm hw (isWord_decimal b), (parse_two hm hw (isWord_decimal b)).trans ?_⟩
    simp [build, hr, immediateOf_decimal]
  | prn a => exact readsBack_of_oneRegister (by decide) (fun t ht => by simp [build, ht]) h
  | mul a b => exact readsBack_of_twoRegisters (by decide) (fun t u ht hu => by simp [build, ht, hu]) h
  | add a b => exact readsBack_of_twoRegisters (by decide) (fun t u ht hu => by simp [build, ht, hu]) h
  | push a => exact readsBack_of_oneRegister (by decide) (fun t ht => by simp [build, ht]) h
  | pop a => exact readsBack_of_oneRegister (by decide) (fun t ht => by simp [build, ht]) h
  | call a => exact readsBack_of_oneRegister (by decide) (fun t ht => by simp [build, ht]) h
  | ret =>
    cases h
    have hm : IsWord ['R', 'E', 'T'] := by decide
    exact ⟨hm.line, parse_mnemonic hm⟩
  | hlt =>
    cases h
    have hm : IsWord ['H', 'L', 'T'] := by decide
    exact ⟨hm.line, parse_mnemonic hm⟩

theorem registerText_isSome (a : Byte) : (registerText a).isSome = namesRegister a := by
  cases h : namesRegister a <;> simp [registerText, h]

theorem oneRegister_isSome (m : List Char) (a : Byte) : (oneRegister m a).isSome = namesRegister a := by
  rw [oneRegister, Option.isSome_map, registerText_isSome]

theorem twoRegisters_isSome (m : List Char) (a b : Byte) :
    (twoRegisters m a b).isSome = (namesRegister a && namesRegister b) := by
  rw [← registerText_isSome, ← registerText_isSome, twoRegisters]
  cases registerText a <;> simp

/-- The instructions that have a text are the well-formed ones (R65). -/
theorem text_isSome (i : Instr) : (text i).isSome = i.wellFormed := by
  cases i with
  | ldi a b => rw [text, Option.isSome_map, registerText_isSome, Instr.wellFormed]
  | prn a => exact oneRegister_isSome _ a
  | mul a b => exact twoRegisters_isSome _ a b
  | add a b => exact twoRegisters_isSome _ a b
  | push a => exact oneRegister_isSome _ a
  | pop a => exact oneRegister_isSome _ a
  | call a => exact oneRegister_isSome _ a
  | ret => rfl
  | hlt => rfl

/-- What a mnemonic with one register operand builds is well formed. -/
theorem wellFormed_of_one {r : List Char} {f : Byte → Instr} {i : Instr} (h : (registerOf r).map f = some i)
    (hf : ∀ a, namesRegister a = true → (f a).wellFormed) : i.wellFormed := by
  obtain ⟨a, ha, rfl⟩ := Option.map_eq_some_iff.mp h
  exact hf a (namesRegister_of_registerOf ha)

/-- What a mnemonic with two register operands builds is well formed. -/
theorem wellFormed_of_two {r q : List Char} {f : Byte → Byte → Instr} {i : Instr}
    (h : ((registerOf r).bind fun a => (registerOf q).map fun b => f a b) = some i)
    (hf : ∀ a b, namesRegister a = true → namesRegister b = true → (f a b).wellFormed) : i.wellFormed := by
  obtain ⟨a, ha, h⟩ := Option.bind_eq_some_iff.mp h
  exact wellFormed_of_one h fun b hb => hf a b (namesRegister_of_registerOf ha) hb

/-- What is built from a mnemonic and written operands is well formed: its registers were read (R65). -/
theorem wellFormed_of_build {m : List Char} {operands : List (List Char)} {i : Instr}
    (h : build m operands = some i) : i.wellFormed := by
  unfold build at h
  split at h
  · obtain ⟨a, ha, h⟩ := Option.bind_eq_some_iff.mp h
    obtain ⟨b, -, rfl⟩ := Option.map_eq_some_iff.mp h
    exact namesRegister_of_registerOf ha
  · exact wellFormed_of_one h fun _ ha => ha
  · exact wellFormed_of_two h fun _ _ ha hb => by simp [Instr.wellFormed, ha, hb]
  · exact wellFormed_of_two h fun _ _ ha hb => by simp [Instr.wellFormed, ha, hb]
  · exact wellFormed_of_one h fun _ ha => ha
  · exact wellFormed_of_one h fun _ ha => ha
  · exact wellFormed_of_one h fun _ ha => ha
  · cases h; rfl
  · cases h; rfl
  · cases h

/-- What is parsed as an instruction was built from a mnemonic and operands, so its registers are R0 to R7. -/
theorem wellFormed_of_parse {cs : List Char} {i : Instr} (h : parse cs = some i) : i.wellFormed := by
  simp only [parse] at h
  split at h
  · exact wellFormed_of_build h
  · exact wellFormed_of_build h

/-! ### Listings -/

theorem exists_text {i : Instr} (h : i.wellFormed) : ∃ cs, text i = some cs :=
  Option.isSome_iff_exists.mp ((text_isSome i).trans h)

/-- A listing, with any spaces before it, assembles to the bytes of its instructions (R65, R67). -/
theorem assemble_listing (is : List (Instr × Char × Nat)) {last : Instr}
    (his : ∀ p ∈ is, p.1.wellFormed ∧ (p.2.1 = '\n' ∨ p.2.1 = ';')) (hlast : last.wellFormed) (n : Nat) :
    assemble (List.replicate n ' ' ++ listing is last) = some ((is.map (·.1) ++ [last]).flatMap encode) := by
  induction is generalizing n with
  | nil =>
    obtain ⟨cs, hcs⟩ := exists_text hlast
    obtain ⟨hline, hparse⟩ := readsBack_of_text hcs
    simp [listing, hcs, assemble_one hline, hparse]
  | cons p is ih =>
    obtain ⟨i, c, k⟩ := p
    obtain ⟨⟨hi, hc⟩, his⟩ := List.forall_mem_cons.mp his
    obtain ⟨cs, hcs⟩ := exists_text hi
    obtain ⟨hline, hparse⟩ := readsBack_of_text hcs
    rw [listing, hcs, Option.getD_some, ← List.append_assoc, assemble_cons _ hline hc n hparse, ih his]
    simp

/-! ### Numerals -/

/-- The digits of a base up to 16, of either case, are read as their values. -/
theorem digitValue_digitChar : ∀ base ≤ 16, ∀ d < base,
    digitValue base (Nat.digitChar d) = some d ∧ digitValue base (Nat.digitChar d).toUpper = some d := by
  decide

/-- No digit ends a word. -/
theorem endsWord_of_digitValue {base v : Nat} {c : Char} (h : digitValue base c = some v) : endsWord c = false := by
  by_contra hc
  simp only [endsWord, Bool.not_eq_false, Bool.or_eq_true, decide_eq_true_eq] at hc
  obtain ((rfl | rfl) | rfl) | rfl := hc <;> simp [digitValue] at h

/-- The three bases of an immediate and their marks (R65). -/
def bases : List (Nat × List Char) := [(10, []), (16, ['0', 'x']), (2, ['0', 'b'])]

/-- No base is above 16, and no character of a mark ends a word. -/
theorem base_le_and_endsWord_mark : ∀ p ∈ bases, p.1 ≤ 16 ∧ ∀ c ∈ p.2, endsWord c = false := by
  simp [bases, endsWord]

/-- A mark and digits after it are a word. -/
theorem isWord_numeral {base : Nat} {mark : List Char} {digit : Nat → Char} {ds : List Nat}
    (hmark : ∀ c ∈ mark, endsWord c = false) (hds : ds ≠ [])
    (hread : ∀ d ∈ ds, digitValue base (digit d) = some d) : IsWord (mark ++ ds.map digit) := by
  refine isWord_of_forall (by simp [hds]) fun c hc => ?_
  obtain hc | hc := List.mem_append.mp hc
  · exact hmark c hc
  · obtain ⟨d, hd, rfl⟩ := List.mem_map.mp hc
    exact endsWord_of_digitValue (hread d hd)

/-- `R` and the digit of an index are a word that is read as that register. -/
theorem isWord_and_registerOf_digitChar (r : RegIx) :
    IsWord ['R', Nat.digitChar r] ∧ registerOf ['R', Nat.digitChar r] = some (BitVec.ofNat 8 r) := by
  have hread : digitValue 8 (Nat.digitChar r) = some r.val := (digitValue_digitChar 8 (by decide) r r.isLt).1
  refine ⟨isWord_numeral (mark := ['R']) (ds := [r.val]) (by simp [endsWord]) (by simp) (by simpa using hread), ?_⟩
  simp [registerOf, hread]

/-- A numeral after the mark of its base is read as its value, if that is a byte. A decimal numeral is not taken for
a marked one, since neither `x` nor `b` is a decimal digit. -/
theorem immediateOf_of_digits {base n : Nat} {mark cs : List Char} (hbase : (base, mark) ∈ bases) (hcs : cs ≠ [])
    (h : digits base cs 0 = some n) :
    immediateOf (mark ++ cs) = if n ≤ 255 then some (BitVec.ofNat 8 n) else none := by
  simp only [bases, List.mem_cons, List.not_mem_nil, or_false, Prod.mk.injEq] at hbase
  obtain ⟨rfl, rfl⟩ | ⟨rfl, rfl⟩ | ⟨rfl, rfl⟩ := hbase
  · rw [List.nil_append]
    unfold immediateOf
    split
    · exact absurd rfl hcs
    · cases h
    · cases h
    · cases h
    · cases h
    · rw [h]; rfl
  · obtain ⟨c, cs, rfl⟩ := List.exists_cons_of_ne_nil hcs
    simp [immediateOf, h]
  · obtain ⟨c, cs, rfl⟩ := List.exists_cons_of_ne_nil hcs
    simp [immediateOf, h]

/-! ### The statements -/

/-- Settles O52: a text is read back, and what is read names registers, because only those are read as operands. -/
theorem assemblerReadsWhatItWrites : Obligations.AssemblerReadsWhatItWrites := by
  refine ⟨fun i => ⟨fun cs h => (readsBack_of_text h).2, ?_⟩, fun cs i h => wellFormed_of_parse h⟩
  rw [text_isSome]

/-- Settles O54, by induction over the listing; the bytes of each form are those of the default map. -/
theorem programTextGivesItsBytes : Obligations.ProgramTextGivesItsBytes :=
  ⟨fun is _ his hlast => assemble_listing is his hlast 0,
    fun _ _ _ => ⟨rfl, rfl, rfl, rfl, rfl, rfl, rfl, rfl, rfl⟩⟩

/-- Settles O55: the line is parsed as LDI with its two operands, and the numeral read in its base. -/
theorem immediatesAreReadInThreeBases : Obligations.ImmediatesAreReadInThreeBases := by
  intro base mark hbase digit hdigit r ds hds hlt
  obtain ⟨hle, hmark⟩ := base_le_and_endsWord_mark _ hbase
  have hread : ∀ d ∈ ds, digitValue base (digit d) = some d := by
    intro d hd
    obtain ⟨hsmall, hcapital⟩ := digitValue_digitChar base hle d (hlt d hd)
    obtain rfl | rfl := hdigit
    · exact hsmall
    · exact hcapital
  have hldi : IsWord ['L', 'D', 'I'] := by decide
  obtain ⟨hr, hreg⟩ := isWord_and_registerOf_digitChar r
  have hv : IsWord (mark ++ ds.map digit) := isWord_numeral hmark hds hread
  have himm : immediateOf (mark ++ ds.map digit) = _ :=
    immediateOf_of_digits hbase (by simpa using hds) (digits_map hread 0)
  calc assemble (['L', 'D', 'I', ' ', 'R', Nat.digitChar r, ','] ++ mark ++ ds.map digit)
      = assemble (['L', 'D', 'I'] ++ ' ' :: ['R', Nat.digitChar r] ++ ',' :: (mark ++ ds.map digit)) := by simp
    _ = (build ['L', 'D', 'I'] [['R', Nat.digitChar r], mark ++ ds.map digit]).map encode := by
        rw [← parse_two hldi hr hv]; exact assemble_one (line_two hldi hr hv) 0
    _ = (immediateOf (mark ++ ds.map digit)).map fun b => [0x82#8, BitVec.ofNat 8 r, b] := by
        simp [build, hreg, Function.comp_def, encode, encodeWith, opcodeMap]
    _ = _ := by
        rw [himm, apply_ite (Option.map _)]; rfl

end Sys2Proof.Machine.Asm
end

section
/-! SUPPORT. Fetching is the list decoder at work on the bytes at pc (`fetchInstr_eq_decode_codeAt`), and from it the
statements about what one step decodes, fetches and raises (40_engine.md, section 1; R76 to R78). -/

namespace Sys2Proof

/-! ### The decoder over another source of bytes -/

/-- Renaming an error commutes with a computation that may go on. -/
theorem mapError_bind {ε ε' α β : Type} (f : ε → ε') (x : Except ε α) (k : α → Except ε β) :
    (x.bind k).mapError f = (x.mapError f).bind fun a => (k a).mapError f := by
  cases x <;> rfl

/-- A computation that has succeeded has no error to rename. -/
theorem mapError_ok {ε ε' α : Type} (f : ε → ε') (a : α) : (Except.ok a).mapError f = .ok a := rfl

/-- Two sources that give the same three first bytes, up to the name of an error, decode alike. -/
theorem decodeFrom_mapError {ε ε' : Type} (f : ε → ε') {m : Config.OpcodeMap} {read : Nat → Except ε Byte}
    {read' : Nat → Except ε' Byte} (unknown : Byte → ε) (h : ∀ k ≤ 2, read' k = (read k).mapError f) :
    decodeFrom m read' (fun op => f (unknown op)) = (decodeFrom m read unknown).mapError f := by
  have h0' := h 0 (by decide)
  cases h0 : read 0 with
  | error e =>
    rw [h0] at h0'
    rw [decodeFrom_missing h0', decodeFrom_missing h0]
    rfl
  | ok op =>
    rw [h0] at h0'
    cases hl : lookup m op with
    | none =>
      rw [decodeFrom_unknown h0' hl, decodeFrom_unknown h0 hl]
      rfl
    | some build =>
      rw [decodeFrom_known h0' hl, decodeFrom_known h0 hl, h 1 (by decide), h 2 (by decide)]
      simp only [mapError_bind, apply_ite (Except.mapError f), mapError_ok]

/-- The decoder on a list is `decodeFrom` over its bytes, with the bytes left over added. -/
theorem decodeWith_map_fst (m : Config.OpcodeMap) (bs : List Byte) :
    (decodeWith m bs).map Prod.fst = decodeFrom m (byteOf bs) .unknownOpcode := by
  cases bs with
  | nil => rfl
  | cons op bs =>
    have h0 : byteOf (op :: bs) 0 = .ok op := rfl
    rw [decodeWith, h0]
    cases decodeFrom m (byteOf (op :: bs)) .unknownOpcode <;> rfl

namespace Machine

/-! ### Fetching from the bytes at pc -/

/-- What the engine raises for what the decoder refuses: a missing byte by its address (R76, R78), a byte that is no
opcode by itself (R77). -/
def fetchRaise (pc : Nat) : DecodeError → Raise
  | .missingByte k => ⟨.outOfRangeAddress, (pc + k : Nat)⟩
  | .unknownOpcode op => ⟨.unknownInstruction, op.toNat⟩

/-- The bytes at pc are those that memory answers there, and they end where memory does. -/
theorem memRead_eq_byteOf_codeAt (s : State) {k : Nat} (hk : k ≤ 2) :
    memRead (s.pc + k) s = (byteOf s.codeAt k).mapError (fetchRaise s.pc) := by
  by_cases h : s.pc + k ≤ 255
  · have hbyte : s.codeAt[k]? = some (s.mem.read (s.pc + k)) := by
      simp [State.codeAt, show k < 3 by omega, show k < 256 - s.pc by omega]
    rw [memRead_pc h, byteOf, hbyte]
    rfl
  · have hbyte : s.codeAt[k]? = none := by
      simp [State.codeAt]; omega
    rw [memRead_pc_error (by omega), byteOf, hbyte]
    rfl

/-- Fetching is decoding the bytes at pc. -/
theorem fetchInstr_eq_decode_codeAt (s : State) :
    fetchInstr s = ((decode s.codeAt).map Prod.fst).mapError (fetchRaise s.pc) := by
  rw [decode, decodeWith_map_fst]
  exact decodeFrom_mapError (fetchRaise s.pc) .unknownOpcode fun k hk => memRead_eq_byteOf_codeAt s hk

/-! ### The step from what is fetched -/

section
variable {s : State}

/-- Where an instruction is fetched the step is its meaning. -/
theorem step_of_fetchInstr {i : Instr} (hs : s.status = .running) (h : fetchInstr s = .ok i) :
    step s = exec i s := by
  simp [step, hs, h]

/-- Where the fetch fails the step takes its error. -/
theorem raises_of_fetchInstr {r : Raise} (hs : s.status = .running) (h : fetchInstr s = .error r) :
    Raises (step s) s r.kind r.detail := by
  have hstep : step s = .next (raise r s) := by simp [step, hs, h]
  exact hstep ▸ raises_raise r s

/-- Where the bytes at pc decode, the step is the meaning of what they decode to. -/
theorem step_of_decode {i : Instr} {rest : List Byte} (hs : s.status = .running)
    (h : decode s.codeAt = .ok (i, rest)) : step s = exec i s :=
  step_of_fetchInstr hs (by rw [fetchInstr_eq_decode_codeAt, h]; rfl)

/-- Where they do not decode, the step raises what the decoder refused. -/
theorem raises_of_decode {e : DecodeError} (hs : s.status = .running) (h : decode s.codeAt = .error e) :
    Raises (step s) s (fetchRaise s.pc e).kind (fetchRaise s.pc e).detail :=
  raises_of_fetchInstr hs (by rw [fetchInstr_eq_decode_codeAt, h]; rfl)

/-- A pc past the last cell raises with itself as the detail (R76). -/
theorem raises_past_top (hs : s.status = .running) (hpc : 255 < s.pc) :
    Raises (step s) s .outOfRangeAddress s.pc :=
  raises_of_fetchInstr hs (fetchInstr_past_top hpc)

end

/-! ### The statements -/

/-- Settles O28: the fetch reads the bytes at pc as the list decoder does. -/
theorem stepRunsTheDecodedInstruction : Obligations.StepRunsTheDecodedInstruction :=
  fun _ _ _ hs h => step_of_decode hs h

/-- Settles O29: each refusal of the decoder has its error. -/
theorem stepRaisesWhatTheDecoderRefuses : Obligations.StepRaisesWhatTheDecoderRefuses :=
  fun _ hs => ⟨fun _ h => raises_of_decode hs h, fun _ h => raises_of_decode hs h⟩

/-- Settles O30: the error's record has the pc the step began with, which is its detail too. -/
theorem opcodeFetchPastTheTopRaises : Obligations.OpcodeFetchPastTheTopRaises := by
  intro s hs hpc
  obtain ⟨t, ht, hstatus, -⟩ := raises_past_top hs hpc
  exact ⟨t, ht, hstatus⟩

/-- Settles O31: the nine bytes are the values of the map, and dispatch comes before any operand. -/
theorem unknownOpcodeRaisesBeforeOperands : Obligations.UnknownOpcodeRaisesBeforeOperands :=
  fun _ hs hpc hop => step_raises_unknown hs hpc rfl hop

/-- Settles O32: what is fetched is built from the declared bytes; at most two are declared, so the first one missing
lies at 256. -/
theorem onlyDeclaredOperandsAreFetched : Obligations.OnlyDeclaredOperandsAreFetched := by
  intro s build hs hpc hl
  have hmax := operandCount_le_two_of_lookup Tests.opcodeMap_valid hl
  obtain ⟨hend, hf⟩ | ⟨hend, hf⟩ := fetchInstr_known hpc hl
  · exact ⟨fun _ => step_of_fetchInstr hs hf, fun h => by omega⟩
  · refine ⟨fun h => by omega, fun _ => ?_⟩
    have hfirst : (if 255 < s.pc + 1 then s.pc + 1 else s.pc + 2) = 256 := by split <;> omega
    rw [hfirst]
    exact raises_of_fetchInstr hs hf

end Machine
end Sys2Proof
end

section
/-! SUPPORT. Where a step goes: the default advance, the pc it can leave, and what a run makes of the state it leaves
(40_engine.md, sections 1 and 2; R75, R79, R80, R83, R85). -/

namespace Sys2Proof.Machine

/-! ### The advance -/

section
variable {s t : State} {i : Instr}

/-- Every instruction but CALL, RET and HLT advances by its length (R79, R80). -/
theorem Completes.pc_advance (h : Completes s i t) (hcall : ∀ a, i ≠ .call a) (hret : i ≠ .ret) (hhlt : i ≠ .hlt) :
    t.pc = s.pc + (encode i).length := by
  cases h with
  | call => exact absurd rfl (hcall _)
  | ret => exact absurd rfl hret
  | hlt => exact absurd rfl hhlt
  | ldi | prn | mul | add | push | pop => rfl

/-- The first byte at pc. -/
theorem opcode_of_at {op : Byte} {bs : List Byte} (h : s.at (op :: bs)) : s.mem.read s.pc = op := by
  obtain ⟨-, -, hbytes⟩ := h
  rw [List.length_cons, List.range_succ_eq_map] at hbytes
  exact (List.cons.inj hbytes).1

/-- The opcode at pc declares how long the instruction is (R57). -/
theorem encode_length_of_at (h : s.at (encode i)) :
    (encode i).length = operandCount (s.mem.read s.pc) + 1 := by
  obtain ⟨op, operands, henc, hn, -⟩ := lengthIsOperandCountPlusOne.2 opcodeMap i Tests.opcodeMap_valid
  have henc : encode i = op :: operands := henc
  rw [henc] at h
  rw [henc, opcode_of_at h, List.length_cons, hn]

end

/-- Settles O33: the instruction at pc is none of the three that do not advance, so pc moves by its length and the
engine is still Running for the next fetch. -/
theorem defaultAdvanceIsNotWrapped : Obligations.DefaultAdvanceIsNotWrapped := by
  intro s t hs h ht hop
  obtain ⟨-, ⟨i, hat, hc⟩ | ⟨r, rfl, -⟩⟩ := step_cases h
  · have hlen : s.pc + (encode i).length ≤ 256 := hat.2.1
    have hcall : ∀ a, i ≠ .call a := by
      rintro a rfl
      exact hop (by rw [opcode_of_at (op := 0x50#8) hat]; decide)
    have hret : i ≠ .ret := by
      rintro rfl
      exact hop (by rw [opcode_of_at (op := 0x11#8) hat]; decide)
    have hhlt : i ≠ .hlt := by
      rintro rfl
      exact hop (by rw [opcode_of_at (op := 0x01#8) hat]; decide)
    have hpc := hc.pc_advance hcall hret hhlt
    refine ⟨?_, by omega, raises_past_top ((hc.status_kept hhlt).trans hs)⟩
    rw [hpc, encode_length_of_at hat, Nat.add_assoc]
  · cases ht

/-- Settles O40: a completed instruction lies below 256 (`Completes.pc_le`), and an error leaves pc in place. -/
theorem stepLeavesPcAtMost256 : Obligations.StepLeavesPcAtMost256 := by
  intro s t hpc h
  obtain ⟨-, ⟨i, ⟨-, hlen, -⟩, hc⟩ | ⟨r, rfl, -⟩⟩ := step_cases h
  · exact hc.pc_le hlen
  · exact hpc

/-! ### The run -/

/-- Settles O35: no instruction stops, and a failed fetch is an error, which is a next state. -/
theorem onlyARunningEngineSteps : Obligations.OnlyARunningEngineSteps := by
  intro s
  constructor
  · intro hs
    obtain ⟨i, -, he⟩ | ⟨r, -, he⟩ := step_running hs
    · exact he ▸ exec_next i s
    · exact ⟨_, he⟩
  · rintro ⟨t, h⟩
    exact (step_cases h).1

section
variable {s t : State}

/-- A round of the run that steps goes on from the next state. -/
theorem runSteps_succ (h : step s = .next t) (n : Nat) : runSteps (n + 1) s = runSteps n t := by
  simp [runSteps, h]

/-- A terminal status is what the run returns, without a step. -/
theorem runReturns_of_result {r : RunResult} (h : s.result = some r) : RunReturns s r := ⟨0, h⟩

/-- A run goes on from the state a step leaves (R83). -/
theorem runReturns_iff_of_step (h : step s = .next t) (r : RunResult) : RunReturns s r ↔ RunReturns t r := by
  constructor
  · rintro ⟨n, hn⟩
    cases n with
    | zero => simp [runSteps, State.result, (step_cases h).1] at hn
    | succ n => exact ⟨n, by rwa [runSteps_succ h] at hn⟩
  · rintro ⟨n, hn⟩
    exact ⟨n + 1, by rwa [runSteps_succ h]⟩

/-- The record of an error that a step takes has the pc the step began with (R147). -/
theorem record_pc_of_step (h : step s = .next t) {k : ErrorKind} {p : Nat} {d : Int}
    (ht : t.status = .error k p d) : p = s.pc := by
  obtain ⟨hs, ⟨i, -, hc⟩ | ⟨r, rfl, -⟩⟩ := step_cases h
  · obtain hst | ⟨-, hst⟩ := hc.status_running_or_halted hs <;> cases hst.symm.trans ht
  · cases ht; rfl

end

/-- Settles O53: a run from `s` is a run from `t`, which returns at once where the status of `t` is terminal. -/
theorem runReturnsTheStatusReached : Obligations.RunReturnsTheStatusReached := by
  intro s t h
  have hrun := runReturns_iff_of_step h
  refine ⟨hrun, fun ht => (hrun _).2 (runReturns_of_result ?_),
    fun k p d ht => ⟨record_pc_of_step h ht, (hrun _).2 (runReturns_of_result ?_)⟩⟩
  · rw [State.result, ht]
  · rw [State.result, ht]

end Sys2Proof.Machine
end

section
/-! SUPPORT. A step reads neither the output emitted before it nor the count of draws (R86): it commutes with a longer
history (`step_ignoresHistory`), because each operation does. -/

namespace Sys2Proof.Machine

/-! ### Operations under a longer history -/

/-- The state with the values `o` emitted before its own output, and another count of draws. -/
def State.withHistory (o : List Byte) (d : Nat) (s : State) : State := { s with out := o ++ s.out, draws := d }

/-- The same end of a handler with its state changed. -/
def Ending.map (f : State → State) : Ending → Ending
  | .advance t => .advance (f t)
  | .explicit t => .explicit (f t)
  | .halt t => .halt (f t)

section
variable (o : List Byte) (d : Nat) (s : State)

@[simp] theorem State.mem_withHistory : (s.withHistory o d).mem = s.mem := rfl
@[simp] theorem State.regs_withHistory : (s.withHistory o d).regs = s.regs := rfl
@[simp] theorem State.pc_withHistory : (s.withHistory o d).pc = s.pc := rfl
@[simp] theorem State.status_withHistory : (s.withHistory o d).status = s.status := rfl
@[simp] theorem State.out_withHistory : (s.withHistory o d).out = o ++ s.out := rfl
@[simp] theorem State.reg_withHistory (i : RegIx) : (s.withHistory o d).reg i = s.reg i := rfl
@[simp] theorem State.sp_withHistory : (s.withHistory o d).sp = s.sp := rfl

@[simp] theorem State.writeReg_withHistory (i : RegIx) (v : Int) :
    (s.withHistory o d).writeReg i v = (s.writeReg i v).withHistory o d := rfl

@[simp] theorem State.setPc_withHistory (n : Nat) : (s.withHistory o d).setPc n = (s.setPc n).withHistory o d := rfl

@[simp] theorem State.emit_withHistory (v : Byte) : (s.withHistory o d).emit v = (s.emit v).withHistory o d := by
  simp [State.emit, State.withHistory]

@[simp] theorem aluApply_withHistory (op : AluOp) (r q : RegIx) :
    aluApply op r q (s.withHistory o d) = (aluApply op r q s).withHistory o d := rfl

@[simp] theorem memRead_withHistory (a : Int) : memRead a (s.withHistory o d) = memRead a s := rfl

@[simp] theorem returnAddress_withHistory : returnAddress (s.withHistory o d) = returnAddress s := rfl

@[simp] theorem memWrite_withHistory (a : Int) (v : Byte) :
    memWrite a v (s.withHistory o d) = State.withHistory o d <$> memWrite a v s := by
  unfold memWrite; split <;> rfl

@[simp] theorem spDec_withHistory : spDec (s.withHistory o d) = State.withHistory o d <$> spDec s := by
  unfold spDec
  dsimp only [State.sp_withHistory]
  split <;> rfl

@[simp] theorem spInc_withHistory : spInc (s.withHistory o d) = State.withHistory o d <$> spInc s := by
  unfold spInc
  dsimp only [State.sp_withHistory]
  split <;> rfl

@[simp] theorem fetchInstr_withHistory : fetchInstr (s.withHistory o d) = fetchInstr s := rfl

end

/-! ### The step under a longer history -/

/-- Whatever the history of `s`, `f` leads to one state but for that history, or takes one error. -/
def IgnoresHistory (f : State → Host.Outcome State Fault Refusal) (s : State) : Prop :=
  (∃ t : State, ∀ o d, f (s.withHistory o d) = .next (t.withHistory o d)) ∨
    ∃ r : Raise, ∀ o d, f (s.withHistory o d) = .next (raise r (s.withHistory o d))

/-- Concluding a handler ignores the history where the handler's end does but for its state. -/
theorem conclude_ignoresHistory (len : Nat) {h : State → Checked Ending} {s : State}
    (hh : ∀ o d, h (s.withHistory o d) = Ending.map (State.withHistory o d) <$> h s) :
    IgnoresHistory (fun s => conclude len s (h s)) s := by
  simp only [IgnoresHistory, hh]
  rcases h s with r | (t | t | t)
  · exact .inr ⟨r, fun _ _ => rfl⟩
  · exact .inl ⟨t.setPc (s.pc + len), fun _ _ => rfl⟩
  · exact .inl ⟨t, fun _ _ => rfl⟩
  · exact .inl ⟨{ t with status := .halted }, fun _ _ => rfl⟩

/-- Every handler is made of operations that commute with a longer history. -/
theorem exec_ignoresHistory (i : Instr) (s : State) : IgnoresHistory (exec i) s := by
  cases i with
  | ldi a b => exact conclude_ignoresHistory 3 fun o d => by simp [Ending.map]
  | prn a => exact conclude_ignoresHistory 2 fun o d => by simp [Ending.map]
  | mul a b => exact conclude_ignoresHistory 3 fun o d => by simp [aluInstr, Ending.map]
  | add a b => exact conclude_ignoresHistory 3 fun o d => by simp [aluInstr, Ending.map]
  | push a => exact conclude_ignoresHistory 2 fun o d => by simp [-memWrite_byte, Ending.map]
  | pop a => exact conclude_ignoresHistory 2 fun o d => by simp [Ending.map]
  | call a => exact conclude_ignoresHistory 2 fun o d => by simp [-memWrite_byte, Ending.map]
  | ret =>
    show IgnoresHistory execRet s
    unfold execRet
    exact conclude_ignoresHistory 1 fun o d => by simp [Ending.map]
  | hlt => exact conclude_ignoresHistory 1 (h := fun s => .ok (.halt s)) fun _ _ => rfl

/-- So does the step: the fetch reads memory and pc alone. -/
theorem step_ignoresHistory {s : State} (hs : s.status = .running) : IgnoresHistory step s := by
  cases hf : fetchInstr s with
  | ok i =>
    have hstep o d : step (s.withHistory o d) = exec i (s.withHistory o d) := step_of_fetchInstr hs hf
    simpa only [IgnoresHistory, hstep] using exec_ignoresHistory i s
  | error r => exact .inr ⟨r, fun o d => by simp [step, hs, hf]⟩

/-! ### The statement -/

/-- States alike in memory, registers, pc and status are one state with different histories. -/
theorem exists_withHistory {s s' : State} (hmem : s'.mem = s.mem) (hregs : s'.regs = s.regs)
    (hpc : s'.pc = s.pc) (hstatus : s'.status = s.status) :
    ∃ s₀ : State, s₀.out = [] ∧ (∃ o d, s = s₀.withHistory o d) ∧ ∃ o d, s' = s₀.withHistory o d := by
  refine ⟨{ s with out := [] }, rfl, ⟨s.out, s.draws, ?_⟩, s'.out, s'.draws, ?_⟩
  · simp [State.withHistory]
  · simp [State.withHistory, ← hmem, ← hregs, ← hpc, ← hstatus]

/-- Settles O36: both steps are, but for their histories, the step of one state without output, and what that step
emits is what both outputs grow by. -/
theorem stepDependsOnMachineStateOnly : Obligations.StepDependsOnMachineStateOnly := by
  intro s s' t hmem hregs hpc hstatus h
  obtain ⟨s₀, hout, ⟨o, d, rfl⟩, o', d', rfl⟩ := exists_withHistory hmem hregs hpc hstatus
  obtain ⟨u, hu⟩ | ⟨r, hr⟩ := step_ignoresHistory (s := s₀) (step_cases h).1
  · cases h.symm.trans (hu o d)
    exact ⟨_, hu o' d', rfl, rfl, fun _ => ⟨rfl, rfl⟩, u.out, by simp [hout], by simp [hout]⟩
  · cases h.symm.trans (hr o d)
    exact ⟨_, hr o' d', rfl, rfl, fun ht => absurd ht (by simp), [], by simp, by simp⟩

end Sys2Proof.Machine
end

section
/-! SUPPORT. A table word placed for the fetch (R81; assumption log 4): its bytes are the bytes at pc. -/

namespace Sys2Proof.Machine

/-- Placing bytes leaves every cell below them. -/
theorem read_placeBytes_below (bs : List Byte) {a x : Nat} (m : Memory) (hx : x < a) :
    (placeBytes bs a m).read x = m.read x := by
  induction bs generalizing a m with
  | nil => rfl
  | cons b bs ih =>
    rw [placeBytes]
    split
    · rw [ih _ (Nat.lt_succ_of_lt hx), Memory.read_write_other _ hx.ne]
    · rfl

/-- Byte `k` of bytes that fit below address 256 lies `k` cells above the first. -/
theorem read_placeBytes {bs : List Byte} {a : Nat} (m : Memory) (hfit : a + bs.length ≤ 256) {k : Nat}
    (hk : k < bs.length) : (placeBytes bs a m).read (a + k) = bs[k] := by
  induction bs generalizing a m k with
  | nil => cases hk
  | cons b bs ih =>
    rw [List.length_cons] at hfit hk
    have ha : a < Config.memSize := by simp only [Config.memSize]; omega
    rw [placeBytes, if_pos ha]
    cases k with
    | zero => exact (read_placeBytes_below bs _ (Nat.lt_succ_self a)).trans (Memory.read_write_same m a b)
    | succ k =>
      rw [show a + (k + 1) = a + 1 + k by omega]
      exact ih (a := a + 1) (m.write a b) (by omega) (Nat.lt_of_succ_lt_succ hk)

/-- Where a table word fits, the bytes at pc are its three bytes. -/
theorem codeAt_withFetchWord {s : State} (hpc : s.pc ≤ 253) (nbits w : Nat) :
    (s.withFetchWord nbits w).codeAt = tableBytes nbits w := by
  have hlen : (tableBytes nbits w).length = 3 := rfl
  have hpc' : (s.withFetchWord nbits w).pc = s.pc := rfl
  apply List.ext_getElem
  · simp [State.codeAt, hlen, hpc']; omega
  · intro k hk hk'
    simp only [State.codeAt, List.getElem_map, List.getElem_take, List.getElem_range]
    exact read_placeBytes s.mem (by omega) hk'

/-- Settles O48: the word's bytes are the bytes at pc, and they decode to the instruction. -/
theorem placedWordRunsNext : Obligations.PlacedWordRunsNext := by
  intro s nbits w i hpc hi
  cases hd : decode (tableBytes nbits w) with
  | error e => simp [decodeTableWord, hd] at hi
  | ok p =>
    obtain ⟨j, rest⟩ := p
    obtain rfl : j = i := by simpa [decodeTableWord, hd] using hi
    exact step_of_decode rfl (by rw [codeAt_withFetchWord hpc, hd])

end Sys2Proof.Machine
end

section
/-! SUPPORT. The statements about register load and output (41_register_io.md): LDI (R91) and PRN (R92). Before them,
the two errors that instructions with a register operand share: the operand is no register (R12), or an operand byte
lies past the last cell (R78). -/

namespace Sys2Proof.Machine

/-! ### The errors of an operand -/

/-- A handler that begins with the check of its register operand raises where the byte names no register, whatever it
would do next. -/
theorem raises_of_regIndex_first {a : Byte} (ha : 7 < a.toNat) (len : Nat) (s : State) (k : RegIx → Checked Ending) :
    Raises (conclude len s (regIndex a >>= k)) s .outOfRangeAddress a.toNat := by
  rw [regIndex_error ha]
  exact raises_raise _ s

/-- An opcode that declares operands past the last cell raises the first address there (R78). -/
theorem raises_of_missing_operand {s : State} {op : Byte} {build : Byte → Byte → Instr} (hs : s.status = .running)
    (hpc : s.pc ≤ 255) (hread : s.mem.read s.pc = op) (hl : lookup opcodeMap op = some build)
    (hmissing : 255 < s.pc + operandCount op) : Raises (step s) s .outOfRangeAddress 256 := by
  subst hread
  obtain ⟨hfits, -⟩ | ⟨-, hf⟩ := fetchInstr_known hpc hl
  · omega
  · exact raises_of_fetchInstr hs hf

/-! ### The statements -/

/-- Settles O15: LDI completes by one register write, whose value is the operand byte itself, and its two operand bytes
must both exist. -/
theorem ldiLoadsTheImmediate : Obligations.LdiLoadsTheImmediate := by
  intro s a b
  have hn : operandCount 0x82#8 = 2 := by decide
  refine ⟨step_of_at (i := .ldi a b), fun r ha => ?_, fun ha => raises_of_regIndex_first ha 3 s _,
    fun hs hpc hread => ?_, fun hs hpc hread => ?_⟩
  · have hval : (s.writeReg r b.toNat).reg r = b := by rw [State.reg_writeReg_same, ofInt_toNat]
    exact ⟨_, (Completes.ldi r ha).exec_eq, hval, rfl, regsKeptBut_writeReg s r b.toNat, fun _ _ => rfl, rfl, rfl⟩
  · exact raises_of_missing_operand hs (by omega) hread rfl (by omega)
  · exact raises_of_missing_operand hs (by omega) hread rfl (by omega)

/-- Settles O16: PRN completes by appending to the output and advancing, and its operand byte must exist. -/
theorem prnEmitsTheRegister : Obligations.PrnEmitsTheRegister := by
  intro s a
  have hn : operandCount 0x47#8 = 1 := by decide
  refine ⟨step_of_at (i := .prn a), fun r ha => ?_, fun ha => raises_of_regIndex_first ha 2 s _,
    fun hs hpc hread => ?_⟩
  · exact ⟨_, (Completes.prn r ha).exec_eq, rfl, rfl, fun _ _ => rfl, fun _ _ => rfl, rfl⟩
  · exact raises_of_missing_operand hs (by omega) hread rfl (by omega)

end Sys2Proof.Machine
end

section
/-! SUPPORT. The statements about the ALU (42_alu.md): the port itself (R100, R101, R103), MUL (R104) and ADD (R105).
Before them, what the two instructions share: the port's effect on the registers for either operation, and the error
of the second operand. -/

namespace Sys2Proof.Machine

/-! ### What MUL and ADD share -/

/-- The result is reduced mod 256, so an 8-bit register holds it whole. -/
theorem aluResult_lt (op : AluOp) (x y : Byte) : aluResult op x y < 256 := by
  cases op with
  | add => exact Nat.mod_lt _ (by decide)
  | multiply => exact Nat.mod_lt _ (by decide)

/-- The destination holds the result of the OLD operand values (R103); the two registers may be one. -/
theorem toNat_reg_aluApply (op : AluOp) (r q : RegIx) (s : State) :
    ((aluApply op r q s).reg r).toNat = aluResult op (s.reg r) (s.reg q) := by
  have hlt := aluResult_lt op (s.reg r) (s.reg q)
  rw [aluApply, State.reg_writeReg_same, BitVec.ofInt_natCast, BitVec.toNat_ofNat, Nat.mod_eq_of_lt hlt]

/-- The ALU writes no register but its destination. -/
theorem regsKeptBut_aluApply (op : AluOp) (r q : RegIx) (s : State) : RegsKeptBut [r] s (aluApply op r q s) :=
  regsKeptBut_writeReg s r _

/-- A handler that checks two register operands in turn raises for the second one only where the first names a
register (D3). -/
theorem raises_of_regIndex_second {a b : Byte} (ha : a.toNat ≤ 7) (hb : 7 < b.toNat) (len : Nat) (s : State)
    (k : RegIx → RegIx → Checked Ending) :
    Raises (conclude len s (regIndex a >>= fun r => regIndex b >>= k r)) s .outOfRangeAddress b.toNat := by
  have hra : regIndex a = .ok ⟨a.toNat, Nat.lt_succ_of_le ha⟩ := regIndex_ok rfl
  rw [hra]
  exact raises_of_regIndex_first hb len s _

/-- The handler of an ALU instruction with two register operands completes by one operation of the ALU. -/
theorem aluInstr_ok (op : AluOp) {a b : Byte} {r q : RegIx} (ha : a.toNat = r.val) (hb : b.toNat = q.val) (s : State) :
    aluInstr op a b s = .ok (.advance (aluApply op r q s)) := by
  rw [aluInstr, regIndex_ok ha, regIndex_ok hb]
  rfl

section
variable {op : AluOp} {code : Byte} {instr : Byte → Byte → Instr}

/-- An instruction of two operand bytes whose handler is that of the ALU operation `op`: the bytes that run it, its
result and frame, the errors of its operands and those of its fetch. -/
theorem aluInstr_spec (hcode : ∀ a b, encode (instr a b) = [code, a, b]) (hlookup : lookup opcodeMap code = some instr)
    (hcount : operandCount code = 2)
    (hexec : ∀ a b s, exec (instr a b) s = conclude 3 s (aluInstr op a b s)) (s : State) (a b : Byte) :
    (s.at [code, a, b] → step s = exec (instr a b) s) ∧
    (∀ r q : RegIx, a.toNat = r.val → b.toNat = q.val → ∃ t, exec (instr a b) s = .next t ∧
      (t.reg r).toNat = aluResult op (s.reg r) (s.reg q) ∧ t.pc = s.pc + 3 ∧
      RegsKeptBut [r] s t ∧ MemKeptBut [] s t ∧ t.status = s.status ∧ t.out = s.out) ∧
    (7 < a.toNat → Raises (exec (instr a b) s) s .outOfRangeAddress a.toNat) ∧
    (a.toNat ≤ 7 → 7 < b.toNat → Raises (exec (instr a b) s) s .outOfRangeAddress b.toNat) ∧
    (s.status = .running → s.pc = 254 → s.mem.read s.pc = code → Raises (step s) s .outOfRangeAddress 256) ∧
    (s.status = .running → s.pc = 255 → s.mem.read s.pc = code → Raises (step s) s .outOfRangeAddress 256) := by
  refine ⟨fun hat => step_of_at (hcode a b ▸ hat), ?_⟩
  rw [hexec]
  refine ⟨fun r q ha hb => ?_, fun ha => raises_of_regIndex_first ha 3 s _,
    fun ha hb => raises_of_regIndex_second ha hb 3 s _, fun hs hpc hread => ?_, fun hs hpc hread => ?_⟩
  · rw [aluInstr_ok op ha hb]
    exact ⟨_, rfl, toNat_reg_aluApply op r q s, rfl, regsKeptBut_aluApply op r q s, fun _ _ => rfl, rfl, rfl⟩
  · exact raises_of_missing_operand hs (by omega) hread hlookup (by omega)
  · exact raises_of_missing_operand hs (by omega) hread hlookup (by omega)

end

/-! ### The statements -/

/-- Settles O13: either operation writes the destination, with its result of the old values, and nothing else. -/
theorem aluWrapsAndReadsFirst : Obligations.AluWrapsAndReadsFirst := fun s a b =>
  ⟨toNat_reg_aluApply .add a b s, toNat_reg_aluApply .multiply a b s,
    regsKeptBut_aluApply .add a b s, regsKeptBut_aluApply .multiply a b s⟩

/-- Settles O17: MUL is the two-operand instruction whose handler multiplies. -/
theorem mulWritesTheProduct : Obligations.MulWritesTheProduct :=
  aluInstr_spec (op := .multiply) (code := 0xA2#8) (instr := .mul) (fun _ _ => rfl) rfl (by decide) fun _ _ _ => rfl

/-- Settles O18: ADD is the two-operand instruction whose handler adds. -/
theorem addWritesTheSum : Obligations.AddWritesTheSum :=
  aluInstr_spec (op := .add) (code := 0xA0#8) (instr := .add) (fun _ _ => rfl) rfl (by decide) fun _ _ _ => rfl

end Sys2Proof.Machine
end

section
/-! SUPPORT. The statements about the stack (43_stack.md). Before them, each stack operation said once: SP's checked
primitives (R116), the state a PUSH leaves (`afterPush`) and the state a POP leaves (`afterPop`), for every register,
R7 too; then PUSHes and POPs in sequence, which rest on one fact, that the byte on top of the stack after a PUSH is what
its register then holds (`read_sp_afterPush`). -/

namespace Sys2Proof.Machine

/-! ### SP's primitives -/

/-- A number that fits a byte is what SP holds after it is written there. -/
theorem toNat_sp_writeReg_seven (s : State) {n : Nat} (h : n ≤ 255) : (s.writeReg 7 (n : Int)).sp.toNat = n := by
  rw [sp_writeReg_seven, toNat_ofNat_of_le h]

theorem spDec_ok {s : State} (h : 0 < s.sp.toNat) : spDec s = .ok (s.writeReg 7 (s.sp.toNat - 1 : Nat)) := by
  obtain ⟨-, he⟩ | ⟨h0, -⟩ := spDec_cases s
  · exact he
  · omega

theorem spDec_error {s : State} (h : s.sp.toNat = 0) : spDec s = .error ⟨.outOfRangeAddress, -1⟩ := by
  obtain ⟨hpos, -⟩ | ⟨-, he⟩ := spDec_cases s
  · omega
  · exact he

theorem spInc_ok {s : State} (h : s.sp.toNat < 255) : spInc s = .ok (s.writeReg 7 (s.sp.toNat + 1 : Nat)) := by
  obtain ⟨-, he⟩ | ⟨htop, -⟩ := spInc_cases s
  · exact he
  · omega

theorem spInc_error {s : State} (h : s.sp.toNat = 255) : spInc s = .error ⟨.outOfRangeAddress, 256⟩ := by
  obtain ⟨hlt, -⟩ | ⟨-, he⟩ := spInc_cases s
  · omega
  · exact he

/-! ### PUSH -/

/-- The state PUSH of register `r` leaves: the byte pushed is the register's after the decrement of SP (R117). -/
def afterPush (s : State) (r : RegIx) : State :=
  (pushed s ((s.writeReg 7 (s.sp.toNat - 1 : Nat)).reg r)).setPc (s.pc + 2)

section
variable (s : State) (r : RegIx)

@[simp] theorem afterPush_pc : (afterPush s r).pc = s.pc + 2 := rfl
@[simp] theorem afterPush_status : (afterPush s r).status = s.status := rfl
@[simp] theorem afterPush_out : (afterPush s r).out = s.out := rfl

theorem afterPush_reg (q : RegIx) :
    (afterPush s r).reg q = if q = 7 then BitVec.ofNat 8 (s.sp.toNat - 1) else s.reg q :=
  pushed_reg s ((s.writeReg 7 (s.sp.toNat - 1 : Nat)).reg r) q

/-- SP goes down by 1 (where it was 0, and PUSH raises, the state named here keeps it). -/
@[simp] theorem toNat_sp_afterPush : (afterPush s r).sp.toNat = s.sp.toNat - 1 :=
  toNat_sp_writeReg_seven s (by have := s.sp.isLt; omega)

/-- The one cell stored to takes what register `r` holds after the PUSH. -/
theorem read_afterPush (a : Nat) :
    (afterPush s r).mem.read a = if a = s.sp.toNat - 1 then (afterPush s r).reg r else s.mem.read a :=
  Memory.read_write s.mem _ _ a

/-- The byte on top of the stack after a PUSH is what its register then holds, for R7 too (D7). -/
theorem read_sp_afterPush : (afterPush s r).mem.read (afterPush s r).sp.toNat = (afterPush s r).reg r := by
  rw [read_afterPush, toNat_sp_afterPush, if_pos rfl]

end

/-- PUSH of a register completes where SP is above 0. -/
theorem exec_push {s : State} {a : Byte} {r : RegIx} (ha : a.toNat = r.val) (hsp : 0 < s.sp.toNat) :
    exec (.push a) s = .next (afterPush s r) :=
  (Completes.push r ha hsp).exec_eq

/-- PUSH of a register raises -1 where SP is 0. -/
theorem raises_push {s : State} {a : Byte} (ha : a.toNat ≤ 7) (hsp : s.sp.toNat = 0) :
    Raises (exec (.push a) s) s .outOfRangeAddress (-1) := by
  obtain ⟨_, -, hpos, -⟩ | ⟨h7, -⟩ | ⟨-, -, he⟩ := execPush_cases a s
  · omega
  · omega
  · exact ⟨_, he, rfl, rfl⟩

/-! ### POP -/

/-- The state in the middle of POP: register `r` has taken the byte at SP, and SP is not yet incremented (R118). -/
def loaded (s : State) (r : RegIx) : State := s.writeReg r (s.mem.read s.sp.toNat).toNat

/-- The state POP into register `r` leaves. -/
def afterPop (s : State) (r : RegIx) : State :=
  ((loaded s r).writeReg 7 ((loaded s r).sp.toNat + 1 : Nat)).setPc (s.pc + 2)

section
variable {s : State} {a : Byte} {r : RegIx}

/-- Loading another register leaves SP for the increment. -/
theorem sp_loaded_other (hr : r ≠ 7) : (loaded s r).sp = s.sp := by
  rw [loaded, State.sp_writeReg, if_neg hr]

/-- Loading R7 makes SP the popped byte (D7). -/
theorem sp_loaded_seven (s : State) : (loaded s 7).sp = s.mem.read s.sp.toNat := by
  rw [loaded, State.sp_writeReg, if_pos rfl, ofInt_toNat]

theorem toNat_sp_afterPop (hsp : (loaded s r).sp.toNat < 255) :
    (afterPop s r).sp.toNat = (loaded s r).sp.toNat + 1 :=
  toNat_sp_writeReg_seven _ hsp

/-- A register other than SP holds the byte that was on top of the stack. -/
theorem afterPop_reg_same (hr : r ≠ 7) : (afterPop s r).reg r = s.mem.read s.sp.toNat := by
  rw [afterPop, State.reg_setPc, State.reg_writeReg_other _ _ _ hr, loaded, State.reg_writeReg_same, ofInt_toNat]

theorem regsKeptBut_afterPop (s : State) (r : RegIx) : RegsKeptBut [r, 7] s (afterPop s r) := fun q hq => by
  simp only [List.mem_cons, List.not_mem_nil, or_false, not_or] at hq
  rw [afterPop, State.reg_setPc, State.reg_writeReg_other _ _ _ hq.2, loaded, State.reg_writeReg_other _ _ _ hq.1]

/-- POP completes where SP, once the register is loaded, is below 255. -/
theorem exec_pop (ha : a.toNat = r.val) (hsp : (loaded s r).sp.toNat < 255) :
    exec (.pop a) s = .next (afterPop s r) :=
  (Completes.pop r ha hsp).exec_eq

/-- POP raises 256 where SP, once the register is loaded, is 255. -/
theorem raises_pop (ha : a.toNat = r.val) (hsp : (loaded s r).sp.toNat = 255) :
    Raises (exec (.pop a) s) s .outOfRangeAddress 256 := by
  obtain ⟨q, hq, hlt, -⟩ | ⟨h7, -⟩ | ⟨-, -, -, he⟩ := execPop_cases a s
  · have hlt : (loaded s q).sp.toNat < 255 := hlt
    rw [regIx_unique hq ha] at hlt
    omega
  · omega
  · exact ⟨_, he, rfl, rfl⟩

/-! ### POP after PUSH -/

/-- Writing to a register what it holds changes nothing. -/
theorem writeReg_reg_self (s : State) (i : RegIx) : s.writeReg i (s.reg i).toNat = s := by
  have hregs : s.regs.set i s.regs[i] = s.regs := Vector.set_getElem_self i.isLt
  rw [State.writeReg, ofInt_toNat, State.reg, hregs]

/-- Where the byte on top of the stack is what register `r` holds, POP into `r` increments SP and nothing else. -/
theorem exec_pop_of_top (ha : a.toNat = r.val) (htop : s.mem.read s.sp.toNat = s.reg r) (hsp : s.sp.toNat < 255) :
    exec (.pop a) s = .next ((s.writeReg 7 (s.sp.toNat + 1 : Nat)).setPc (s.pc + 2)) := by
  have hl : loaded s r = s := by rw [loaded, htop, writeReg_reg_self]
  rw [exec_pop ha (by rwa [hl]), afterPop, hl]

/-- Incrementing SP undoes what a PUSH did to the registers. -/
theorem reg_spInc_of_afterPush {u : State} (hsp : 0 < s.sp.toNat) (hu : ∀ q, u.reg q = (afterPush s r).reg q)
    (q : RegIx) : (u.writeReg 7 (u.sp.toNat + 1 : Nat)).reg q = s.reg q := by
  have husp : u.sp.toNat + 1 = s.sp.toNat := by
    rw [State.sp_eq_reg, hu, ← State.sp_eq_reg, toNat_sp_afterPush]
    omega
  rw [husp, State.reg_writeReg]
  split
  · next h => rw [ofInt_toNat, h, State.sp_eq_reg]
  · next h => rw [hu, afterPush_reg, if_neg h]

end

/-! ### PUSHes and POPs in sequence -/

/-- An instruction that leaves the engine Running is followed by the rest of the list. -/
theorem execAll_cons {i : Instr} {s t : State} (is : List Instr) (h : exec i s = .next t) (ht : t.status = .running) :
    execAll (i :: is) s = execAll is t := by
  simp [execAll, h, ht]

/-- A list that leaves the engine Running is followed by what is appended to it. -/
theorem execAll_append {is : List Instr} {s t : State} (js : List Instr) (h : execAll is s = .next t)
    (ht : t.status = .running) : execAll (is ++ js) s = execAll js t := by
  induction is generalizing s with
  | nil => cases h; rfl
  | cons i is ih =>
    obtain ⟨u, hu⟩ := exec_next i s
    by_cases hrun : u.status = .running
    · rw [execAll_cons is hu hrun] at h
      rw [List.cons_append, execAll_cons _ hu hrun, ih h]
    · simp only [execAll, hu, if_neg hrun] at h
      cases h
      exact absurd ht hrun

/-- The operand byte of `pushOf` and `popOf` is the register's number. -/
theorem toNat_operand (r : RegIx) : (BitVec.ofNat 8 r.val).toNat = r.val :=
  toNat_ofNat_of_le (by have := r.isLt; omega)

/-- The state PUSHes of a list of registers leave. -/
def afterPushes (rs : List RegIx) (s : State) : State := rs.foldl afterPush s

@[simp] theorem afterPushes_nil (s : State) : afterPushes [] s = s := rfl
@[simp] theorem afterPushes_cons (r : RegIx) (rs : List RegIx) (s : State) :
    afterPushes (r :: rs) s = afterPushes rs (afterPush s r) := rfl

@[simp] theorem afterPushes_status (rs : List RegIx) (s : State) : (afterPushes rs s).status = s.status := by
  induction rs generalizing s with
  | nil => rfl
  | cons r rs ih => rw [afterPushes_cons, ih, afterPush_status]

@[simp] theorem afterPushes_out (rs : List RegIx) (s : State) : (afterPushes rs s).out = s.out := by
  induction rs generalizing s with
  | nil => rfl
  | cons r rs ih => rw [afterPushes_cons, ih, afterPush_out]

@[simp] theorem toNat_sp_afterPushes (rs : List RegIx) (s : State) :
    (afterPushes rs s).sp.toNat = s.sp.toNat - rs.length := by
  induction rs generalizing s with
  | nil => rfl
  | cons r rs ih =>
    rw [afterPushes_cons, ih, toNat_sp_afterPush, List.length_cons]
    omega

section
variable {rs : List RegIx} {s : State}

/-- Where SP allows a list of PUSHes, it allows the rest of them after the first. -/
theorem length_le_sp_afterPush {r : RegIx} (hlen : (r :: rs).length ≤ s.sp.toNat) :
    rs.length ≤ (afterPush s r).sp.toNat := by
  rw [toNat_sp_afterPush]
  exact Nat.le_sub_one_of_lt hlen

/-- As many PUSHes as SP allows complete, R7 among them too. -/
theorem execAll_pushes (hs : s.status = .running) (hlen : rs.length ≤ s.sp.toNat) :
    execAll (rs.map pushOf) s = .next (afterPushes rs s) := by
  induction rs generalizing s with
  | nil => rfl
  | cons r rs ih =>
    have hpush : exec (pushOf r) s = .next (afterPush s r) :=
      exec_push (toNat_operand r) (Nat.zero_lt_of_lt hlen)
    rw [List.map_cons, execAll_cons _ hpush hs, afterPushes_cons]
    exact ih hs (length_le_sp_afterPush hlen)

/-- PUSHes store only between the new SP and the old one. -/
theorem read_afterPushes_outside (hlen : rs.length ≤ s.sp.toNat) {a : Nat}
    (ha : a < s.sp.toNat - rs.length ∨ s.sp.toNat ≤ a) : (afterPushes rs s).mem.read a = s.mem.read a := by
  induction rs generalizing s with
  | nil => rfl
  | cons r rs ih =>
    have ha' : a < (afterPush s r).sp.toNat - rs.length ∨ (afterPush s r).sp.toNat ≤ a := by
      rw [List.length_cons] at ha
      rw [toNat_sp_afterPush]
      omega
    have hcell : a ≠ s.sp.toNat - 1 := by
      rw [List.length_cons] at hlen ha
      omega
    rw [afterPushes_cons, ih (length_le_sp_afterPush hlen) ha', read_afterPush, if_neg hcell]

/-- The k-th register pushed lies k cells below the old SP; a later PUSH does not reach it. -/
theorem read_afterPushes_stored (hlen : rs.length ≤ s.sp.toNat) (h7 : ∀ r ∈ rs, r ≠ 7) {k : Nat}
    (hk : k < rs.length) : (afterPushes rs s).mem.read (s.sp.toNat - (k + 1)) = s.reg rs[k] := by
  induction rs generalizing s k with
  | nil => exact absurd hk (Nat.not_lt_zero k)
  | cons r rs ih =>
    have hlen' := length_le_sp_afterPush hlen
    have hreg {q : RegIx} (hq : q ∈ r :: rs) : (afterPush s r).reg q = s.reg q := by
      rw [afterPush_reg, if_neg (h7 q hq)]
    rw [afterPushes_cons]
    cases k with
    | zero =>
      have hcell : s.sp.toNat - (0 + 1) = (afterPush s r).sp.toNat := (toNat_sp_afterPush s r).symm
      rw [hcell, read_afterPushes_outside hlen' (.inr le_rfl), read_sp_afterPush, hreg List.mem_cons_self]
      rfl
    | succ k =>
      have hk' : k < rs.length := Nat.lt_of_succ_lt_succ hk
      have hcell : s.sp.toNat - (k + 1 + 1) = (afterPush s r).sp.toNat - (k + 1) := by
        rw [toNat_sp_afterPush]
        omega
      rw [hcell, ih hlen' (fun q hq => h7 q (List.mem_cons_of_mem r hq)) hk',
        hreg (List.mem_cons_of_mem r (List.getElem_mem hk'))]
      rfl

/-- POPs in reverse order undo PUSHes: the inner registers are popped first, which leaves the registers and memory as
the outermost PUSH left them, and its POP undoes that one. -/
theorem execAll_pops_afterPushes (hs : s.status = .running) (hlen : rs.length ≤ s.sp.toNat) :
    ∃ u, execAll (rs.reverse.map popOf) (afterPushes rs s) = .next u ∧ u.status = .running ∧
      u.mem = (afterPushes rs s).mem ∧ ∀ q : RegIx, u.reg q = s.reg q := by
  induction rs generalizing s with
  | nil => exact ⟨s, rfl, hs, rfl, fun _ => rfl⟩
  | cons r rs ih =>
    have hlt := s.sp.isLt
    have hpos : 0 < s.sp.toNat := Nat.zero_lt_of_lt hlen
    have hlen' := length_le_sp_afterPush hlen
    obtain ⟨u, hu, hrun, hmem, hreg⟩ := ih (s := afterPush s r) hs hlen'
    have hsp : u.sp = (afterPush s r).sp := hreg 7
    have htop : u.mem.read u.sp.toNat = u.reg r := by
      rw [hmem, hsp, read_afterPushes_outside hlen' (.inr le_rfl), read_sp_afterPush, hreg]
    have hpop : exec (popOf r) u = .next ((u.writeReg 7 (u.sp.toNat + 1 : Nat)).setPc (u.pc + 2)) :=
      exec_pop_of_top (toNat_operand r) htop (by rw [hsp, toNat_sp_afterPush]; omega)
    rw [afterPushes_cons, List.reverse_cons, List.map_append]
    exact ⟨_, (execAll_append [popOf r] hu hrun).trans (execAll_cons [] hpop hrun), hrun, hmem,
      reg_spInc_of_afterPush hpos hreg⟩

end

/-! ### The statements -/

/-- Settles O14: where a primitive's sum leaves 0 to 255 it raises it; where not, it is one write of SP. -/
theorem stackPointerIsCheckedNotWrapped : Obligations.StackPointerIsCheckedNotWrapped := by
  intro s
  have hlt := s.sp.isLt
  refine ⟨spDec_error, fun hpos => ?_, spInc_error, fun htop => ?_, fun v => (registerWriteStoresMod256 s 7 v).1⟩
  · refine ⟨_, spDec_ok hpos, ?_, regsKeptBut_writeReg s 7 _, rfl, rfl, rfl, rfl⟩
    rw [toNat_sp_writeReg_seven s (by omega)]
    omega
  · exact ⟨_, spInc_ok htop, toNat_sp_writeReg_seven s htop, regsKeptBut_writeReg s 7 _, rfl, rfl, rfl, rfl⟩

/-- Settles O19: PUSH completes in `afterPush`, where the stored byte is the register's after the decrement. -/
theorem pushStoresBelowTheStackPointer : Obligations.PushStoresBelowTheStackPointer := by
  intro s a
  have hn : operandCount 0x45#8 = 1 := by decide
  refine ⟨step_of_at (i := .push a), fun r ha hsp => ?_, fun ha => raises_of_regIndex_first ha 2 s _,
    fun ha hsp => raises_push ha (congrArg BitVec.toNat hsp), fun hs hpc hread => ?_⟩
  · have hstored : (afterPush s r).mem.read (s.sp.toNat - 1) =
        if r = 7 then BitVec.ofNat 8 (s.sp.toNat - 1) else s.reg r := by
      rw [read_afterPush, if_pos rfl, afterPush_reg]
    have hregs : RegsKeptBut [7] s (afterPush s r) := fun q hq => by
      rw [afterPush_reg, if_neg (List.ne_of_not_mem_cons hq)]
    have hmem : MemKeptBut [s.sp.toNat - 1] s (afterPush s r) := fun x hx => by
      rw [read_afterPush, if_neg (List.ne_of_not_mem_cons hx)]
    exact ⟨_, exec_push ha hsp, toNat_sp_afterPush s r, hstored, rfl, hregs, hmem, rfl, rfl⟩
  · exact raises_of_missing_operand hs (by omega) hread rfl (by omega)

/-- Settles O20: POP completes in `afterPop` or raises 256, by the SP it increments: the old SP, or for R7 the popped
byte. -/
theorem popLoadsAtTheStackPointer : Obligations.PopLoadsAtTheStackPointer := by
  intro s a
  have hn : operandCount 0x46#8 = 1 := by decide
  refine ⟨step_of_at (i := .pop a), fun r hr ha hsp => ?_, fun ha hv => ?_,
    fun ha => raises_of_regIndex_first ha 2 s _, fun ha hsp => ?_, fun ha hv => ?_, fun hs hpc hread => ?_⟩
  · have hl : (loaded s r).sp.toNat < 255 := by rwa [sp_loaded_other hr]
    have hsp' : (afterPop s r).sp.toNat = s.sp.toNat + 1 := by rw [toNat_sp_afterPop hl, sp_loaded_other hr]
    exact ⟨_, exec_pop ha hl, afterPop_reg_same hr, hsp', rfl, regsKeptBut_afterPop s r, fun _ _ => rfl, rfl, rfl⟩
  · subst ha
    have hl : (loaded s 7).sp.toNat < 255 := by
      rw [sp_loaded_seven]
      have := (s.mem.read s.sp.toNat).isLt
      have : (s.mem.read s.sp.toNat).toNat ≠ 255 := fun h => hv (BitVec.eq_of_toNat_eq h)
      omega
    have hsp' : (afterPop s 7).sp.toNat = (s.mem.read s.sp.toNat).toNat + 1 := by
      rw [toNat_sp_afterPop hl, sp_loaded_seven]
    have hregs : RegsKeptBut [7] s (afterPop s 7) := fun q hq => regsKeptBut_afterPop s 7 q (by simpa using hq)
    exact ⟨_, exec_pop rfl hl, hsp', rfl, hregs, fun _ _ => rfl, rfl, rfl⟩
  · have hr : (⟨a.toNat, by omega⟩ : RegIx) ≠ 7 := fun h => ha.ne (congrArg Fin.val h)
    exact raises_pop rfl (by rw [sp_loaded_other hr, hsp]; rfl)
  · subst ha
    exact raises_pop (r := 7) rfl (by rw [sp_loaded_seven, hv]; rfl)
  · exact raises_of_missing_operand hs (by omega) hread rfl (by omega)

/-- Settles O42: the byte the PUSH put on top is what the register then holds, so the POP only increments SP. -/
theorem pushThenPopRestores : Obligations.PushThenPopRestores := by
  intro s t u a hs h ht h'
  have hlt := s.sp.isLt
  cases completes_of_exec h ht with
  | push r ha hsp =>
    have hpop := exec_pop_of_top ha (read_sp_afterPush s r) (by rw [toNat_sp_afterPush]; omega)
    cases h'.symm.trans hpop
    refine ⟨hs, reg_spInc_of_afterPush hsp fun _ => rfl, fun x hx => ?_, rfl, ?_⟩
    · exact (read_afterPush s r x).trans (if_neg (List.ne_of_not_mem_cons hx))
    · exact congrArg (afterPush s r).mem.read (toNat_sp_afterPush s r).symm

/-- Settles O43: the PUSHes lead to `afterPushes`, whose cells and SP are known, and the POPs undo them. -/
theorem stackIsLastInFirstOut : Obligations.StackIsLastInFirstOut := by
  intro rs s hs h7 hlen
  obtain ⟨u, hu, hrun, -, hreg⟩ := execAll_pops_afterPushes hs hlen
  exact ⟨_, u, execAll_pushes hs hlen, toNat_sp_afterPushes rs s, fun _ => read_afterPushes_stored hlen h7,
    fun _ => read_afterPushes_outside hlen, hu, hrun, hreg⟩

/-- Settles O44: PUSHes as many as SP says leave SP 0, where a PUSH of any register raises. -/
theorem pushesFillDownToAddressZero : Obligations.PushesFillDownToAddressZero := by
  intro rs r s hs _ hlen
  have hsp : (afterPushes rs s).sp.toNat = 0 := by rw [toNat_sp_afterPushes, hlen, Nat.sub_self]
  refine ⟨_, execAll_pushes hs hlen.le, (afterPushes_status rs s).trans hs, BitVec.eq_of_toNat_eq hsp,
    afterPushes_out rs s, raises_push ?_ hsp⟩
  rw [toNat_operand]
  exact Nat.le_of_lt_succ r.isLt

end Sys2Proof.Machine
end

section
/-! SUPPORT. The statements about control transfer (44_control.md). Before them, the state a CALL leaves (`afterCall`)
for every register, R7 too, and what RET does where SP allows and where it does not; a RET finds CALL's return address
because that byte is on top of the stack after the CALL (`toNat_read_sp_afterCall`). -/

namespace Sys2Proof.Machine

/-! ### CALL -/

/-- The state CALL of register `r` leaves: the return address is pushed, then the register gives the pc (R130). -/
def afterCall (s : State) (r : RegIx) : State :=
  (pushed s (BitVec.ofNat 8 (s.pc + 2))).setPc ((pushed s (BitVec.ofNat 8 (s.pc + 2))).reg r).toNat

section
variable (s : State) (r : RegIx)

/-- CALL does to the registers what a PUSH does. -/
theorem afterCall_reg (q : RegIx) : (afterCall s r).reg q = (afterPush s r).reg q := rfl

@[simp] theorem toNat_sp_afterCall : (afterCall s r).sp.toNat = s.sp.toNat - 1 :=
  toNat_sp_afterPush s r

/-- The target is the register after the decrement of SP, so for R7 the lowered SP (D7). -/
theorem afterCall_pc : (afterCall s r).pc = if r = 7 then s.sp.toNat - 1 else (s.reg r).toNat := by
  have hpc : (afterCall s r).pc = ((afterPush s r).reg r).toNat := rfl
  rw [hpc]
  split
  · next h => rw [h, ← State.sp_eq_reg, toNat_sp_afterPush]
  · next h => rw [afterPush_reg, if_neg h]

theorem afterCall_pc_le : (afterCall s r).pc ≤ 255 :=
  Nat.le_of_lt_succ (BitVec.isLt _)

theorem regsKeptBut_afterCall : RegsKeptBut [7] s (afterCall s r) := fun q hq => by
  rw [afterCall_reg, afterPush_reg, if_neg (List.ne_of_not_mem_cons hq)]

theorem memKeptBut_afterCall : MemKeptBut [s.sp.toNat - 1] s (afterCall s r) := fun _ ha =>
  Memory.read_write_other s.mem (List.ne_of_not_mem_cons ha) _

end

section
variable {s : State} {a : Byte} {r : RegIx}

/-- The byte on top of the stack after a CALL is its return address (R131). -/
theorem toNat_read_sp_afterCall (hpc : s.pc ≤ 253) :
    ((afterCall s r).mem.read (afterCall s r).sp.toNat).toNat = s.pc + 2 := by
  have hstored : (afterCall s r).mem.read (s.sp.toNat - 1) = BitVec.ofNat 8 (s.pc + 2) :=
    Memory.read_write_same s.mem _ _
  rw [toNat_sp_afterCall, hstored, toNat_ofNat_of_le (by omega)]

/-- CALL of a register completes where SP is above 0 and the return address fits a byte. -/
theorem exec_call (ha : a.toNat = r.val) (hsp : 0 < s.sp.toNat) (hpc : s.pc ≤ 253) :
    exec (.call a) s = .next (afterCall s r) :=
  (Completes.call r ha hsp hpc).exec_eq

/-- CALL of a register raises -1 where SP is 0, wherever the CALL lies. -/
theorem raises_call_of_sp (ha : a.toNat ≤ 7) (hsp : s.sp.toNat = 0) :
    Raises (exec (.call a) s) s .outOfRangeAddress (-1) := by
  obtain ⟨_, -, hpos, -⟩ | ⟨h7, -⟩ | ⟨-, -, he⟩ | ⟨-, hpos, -⟩ := execCall_cases a s
  · omega
  · omega
  · exact ⟨_, he, rfl, rfl⟩
  · omega

/-- CALL of a register raises its return address where that does not fit a byte, once SP is decremented (R131). -/
theorem raises_call_of_returnAddress (ha : a.toNat ≤ 7) (hsp : 0 < s.sp.toNat) (hpc : 253 < s.pc) :
    Raises (exec (.call a) s) s .outOfRangeAddress (s.pc + 2 : Nat) := by
  obtain ⟨_, -, -, hle, -⟩ | ⟨h7, -⟩ | ⟨-, h0, -⟩ | ⟨-, -, -, he⟩ := execCall_cases a s
  · omega
  · omega
  · omega
  · exact ⟨_, he, rfl, rfl⟩

/-! ### RET -/

/-- RET completes where SP is below 255: the byte at SP gives the pc, and SP is incremented (R133). -/
theorem exec_ret (hsp : s.sp.toNat < 255) :
    exec .ret s = .next ((s.writeReg 7 (s.sp.toNat + 1 : Nat)).setPc (s.mem.read s.sp.toNat).toNat) :=
  (Completes.ret hsp).exec_eq

/-- RET raises 256 where SP is 255 (D5). -/
theorem raises_ret (hsp : s.sp.toNat = 255) : Raises (exec .ret s) s .outOfRangeAddress 256 := by
  obtain ⟨hlt, -⟩ | ⟨-, he⟩ := execRet_cases s
  · omega
  · exact ⟨_, he, rfl, rfl⟩

end

/-! ### The statements -/

/-- Settles O21: CALL completes in `afterCall`; its errors come in the order operand, SP, return address, and its
operand byte must exist. -/
theorem callPushesTheReturnAddress : Obligations.CallPushesTheReturnAddress := by
  intro s a
  have hn : operandCount 0x50#8 = 1 := by decide
  refine ⟨step_of_at (i := .call a), fun r ha hsp hpc => ?_, fun ha => raises_of_regIndex_first ha 2 s _,
    fun ha hsp => raises_call_of_sp ha (congrArg BitVec.toNat hsp), fun ha hsp hpc => ?_, fun hs hpc hread => ?_⟩
  · have hstored := toNat_read_sp_afterCall (r := r) hpc
    rw [toNat_sp_afterCall] at hstored
    exact ⟨_, exec_call ha hsp hpc, toNat_sp_afterCall s r, hstored, afterCall_pc s r, regsKeptBut_afterCall s r,
      memKeptBut_afterCall s r, rfl, rfl⟩
  · have hraise := raises_call_of_returnAddress ha hsp (by omega : 253 < s.pc)
    rwa [hpc] at hraise
  · exact raises_of_missing_operand hs (by omega) hread rfl (by omega)

/-- Settles O22: RET is one write of SP and a jump to the byte at the old SP, or the error of SP's increment. -/
theorem retTakesTheReturnAddress : Obligations.RetTakesTheReturnAddress := by
  intro s
  refine ⟨step_of_at (i := .ret), fun hsp => ?_, fun hsp => raises_ret (congrArg BitVec.toNat hsp)⟩
  exact ⟨_, exec_ret hsp, rfl, toNat_sp_writeReg_seven s hsp, regsKeptBut_writeReg s 7 _, fun _ _ => rfl, rfl, rfl⟩

/-- Settles O23: HLT writes the status and no other field. -/
theorem hltHaltsAndChangesNothingElse : Obligations.HltHaltsAndChangesNothingElse := fun _ =>
  ⟨step_of_at (i := .hlt), _, Completes.hlt.exec_eq, rfl, rfl, fun _ _ => rfl, fun _ _ => rfl, rfl⟩

/-- Settles O45: the CALL leaves its return address on top of the stack, and the RET takes it and undoes the CALL's
decrement of SP. -/
theorem callThenRetReturns : Obligations.CallThenRetReturns := by
  intro s t a hat h ht hread
  have hexec : exec (.call a) s = .next t := (step_of_at (i := .call a) hat).symm.trans h
  cases completes_of_exec hexec ht with
  | call r ha hsp hpc =>
    have hlt := s.sp.isLt
    have hret : (afterCall s r).at (encode .ret) :=
      ⟨hat.1, Nat.succ_le_succ (afterCall_pc_le s r), congrArg (fun op => [op]) hread⟩
    have hstep := (step_of_at hret).trans (exec_ret (by rw [toNat_sp_afterCall]; omega))
    exact ⟨_, hstep, hat.1, toNat_read_sp_afterCall hpc, reg_spInc_of_afterPush hsp (afterCall_reg s r)⟩

end Sys2Proof.Machine
end

section
/-! SUPPORT. The statements about errors (60_exceptions.md, section 1; R146 to R148, R153). A step takes an error with
the kind and detail of a listed cause, or completes the instruction at pc (`step_next_completes_or_cause`), and where an
instruction completes no cause holds (`Completes.not_cause`). Then the output along a run. -/

namespace Sys2Proof.Machine

section
variable {s t : State} {i : Instr} {op a b : Byte} {bs : List Byte}

/-! ### The operand bytes at pc, and the causes said of them -/

/-- The bytes of the instruction at pc end where memory does. -/
theorem end_le_of_at (h : s.at bs) : s.pc + bs.length ≤ 256 := h.2.1

/-- The second byte at pc is operand A. -/
theorem operandA_of_at (h : s.at (op :: a :: bs)) : s.mem.read (s.pc + 1) = a := by
  obtain ⟨-, -, hbytes⟩ := h
  simp only [List.length_cons, List.range_succ_eq_map] at hbytes
  exact (List.cons.inj (List.cons.inj hbytes).2).1

/-- The third byte at pc is operand B. -/
theorem operandB_of_at (h : s.at (op :: a :: b :: bs)) : s.mem.read (s.pc + 2) = b := by
  obtain ⟨-, -, hbytes⟩ := h
  simp only [List.length_cons, List.range_succ_eq_map] at hbytes
  exact (List.cons.inj (List.cons.inj (List.cons.inj hbytes).2).2).1

/-- The cause of an operand A that names no register (R12). -/
theorem cause_of_operandA (h : s.at (op :: a :: bs))
    (hop : op ∈ [0x82#8, 0x47#8, 0xA2#8, 0xA0#8, 0x45#8, 0x46#8, 0x50#8]) (ha : 7 < a.toNat) :
    Cause s .outOfRangeAddress a.toNat := by
  have hread := operandA_of_at h
  have hlen := end_le_of_at h
  simp only [List.length_cons] at hlen
  rw [← hread] at ha ⊢
  exact .registerA (by omega) (opcode_of_at h ▸ hop) ha

/-- The cause of an operand B that names no register (R12). -/
theorem cause_of_operandB (h : s.at (op :: a :: b :: bs)) (hop : op ∈ [0xA2#8, 0xA0#8]) (hb : 7 < b.toNat) :
    Cause s .outOfRangeAddress b.toNat := by
  have hread := operandB_of_at h
  have hlen := end_le_of_at h
  simp only [List.length_cons] at hlen
  rw [← hread] at hb ⊢
  exact .registerB (by omega) (opcode_of_at h ▸ hop) hb

/-- SP in the middle of POP, by the operand byte: the popped byte for R7 (D7), the old SP for every other register. -/
theorem sp_loaded {r : RegIx} (ha : a.toNat = r.val) :
    (loaded s r).sp = if a = 7#8 then s.mem.read s.sp.toNat else s.sp := by
  split
  · next ha7 =>
    obtain rfl : r = 7 := Fin.ext (by rw [← ha, ha7]; rfl)
    exact sp_loaded_seven s
  · next ha7 =>
    refine sp_loaded_other fun hr => ha7 (BitVec.eq_of_toNat_eq ?_)
    rw [ha, hr]
    rfl

/-- A POP at pc whose register, once loaded, leaves SP at 255 has one of the two causes of POP (log 5). -/
theorem cause_of_pop {r : RegIx} (h : s.at (encode (.pop a))) (ha : a.toNat = r.val)
    (hsp : (loaded s r).sp.toNat = 255) : Cause s .outOfRangeAddress 256 := by
  have hpc : s.pc + 2 ≤ 256 := end_le_of_at h
  have hop : s.mem.read s.pc = 0x46#8 := opcode_of_at h
  have hread : s.mem.read (s.pc + 1) = a := operandA_of_at h
  have hsp : (loaded s r).sp = 255#8 := BitVec.eq_of_toNat_eq hsp
  rw [sp_loaded ha, ← hread] at hsp
  split at hsp
  · next ha7 => exact .popIntoSp (by omega) hop ha7 hsp
  · next ha7 => exact .popAbove (by omega) hop ha7 hsp

/-! ### An error has a cause -/

/-- An instruction at pc completes, or its error has a cause of R146. -/
theorem exec_completes_or_cause (h : s.at (encode i)) :
    (∃ t, Completes s i t ∧ exec i s = .next t) ∨
      ∃ r, exec i s = .next (raise r s) ∧ Cause s r.kind r.detail := by
  have hlen : s.pc + (encode i).length ≤ 256 := end_le_of_at h
  have hpos := encode_length_pos i
  have hpc : s.pc ≤ 255 := by omega
  cases i with
  | ldi a b =>
    obtain ⟨r, ha, he⟩ | ⟨ha, he⟩ := execLdi_cases a b s
    · exact .inl ⟨_, .ldi r ha, he⟩
    · exact .inr ⟨_, he, cause_of_operandA h (by decide) ha⟩
  | prn a =>
    obtain ⟨r, ha, he⟩ | ⟨ha, he⟩ := execPrn_cases a s
    · exact .inl ⟨_, .prn r ha, he⟩
    · exact .inr ⟨_, he, cause_of_operandA h (by decide) ha⟩
  | mul a b =>
    obtain ⟨r, q, ha, hb, he⟩ | ⟨ha, he⟩ | ⟨-, hb, he⟩ := execMul_cases a b s
    · exact .inl ⟨_, .mul r q ha hb, he⟩
    · exact .inr ⟨_, he, cause_of_operandA h (by decide) ha⟩
    · exact .inr ⟨_, he, cause_of_operandB h (by decide) hb⟩
  | add a b =>
    obtain ⟨r, q, ha, hb, he⟩ | ⟨ha, he⟩ | ⟨-, hb, he⟩ := execAdd_cases a b s
    · exact .inl ⟨_, .add r q ha hb, he⟩
    · exact .inr ⟨_, he, cause_of_operandA h (by decide) ha⟩
    · exact .inr ⟨_, he, cause_of_operandB h (by decide) hb⟩
  | push a =>
    have hop : s.mem.read s.pc = 0x45#8 := opcode_of_at h
    obtain ⟨r, ha, hsp, he⟩ | ⟨ha, he⟩ | ⟨-, hsp, he⟩ := execPush_cases a s
    · exact .inl ⟨_, .push r ha hsp, he⟩
    · exact .inr ⟨_, he, cause_of_operandA h (by decide) ha⟩
    · exact .inr ⟨_, he, .stackBelowZero hpc (by simp [hop]) (BitVec.eq_of_toNat_eq hsp)⟩
  | pop a =>
    obtain ⟨r, ha, hsp, he⟩ | ⟨ha, he⟩ | ⟨r, ha, hsp, he⟩ := execPop_cases a s
    · exact .inl ⟨_, .pop r ha hsp, he⟩
    · exact .inr ⟨_, he, cause_of_operandA h (by decide) ha⟩
    · exact .inr ⟨_, he, cause_of_pop h ha hsp⟩
  | call a =>
    have hop : s.mem.read s.pc = 0x50#8 := opcode_of_at h
    obtain ⟨r, ha, hsp, hle, he⟩ | ⟨ha, he⟩ | ⟨-, hsp, he⟩ | ⟨-, -, hlt, he⟩ := execCall_cases a s
    · exact .inl ⟨_, .call r ha hsp hle, he⟩
    · exact .inr ⟨_, he, cause_of_operandA h (by decide) ha⟩
    · exact .inr ⟨_, he, .stackBelowZero hpc (by simp [hop]) (BitVec.eq_of_toNat_eq hsp)⟩
    · have hlen : s.pc + 2 ≤ 256 := hlen
      have hpc : s.pc = 254 := by omega
      rw [hpc] at he
      exact .inr ⟨_, he, .returnAddress hpc hop⟩
  | ret =>
    obtain ⟨hsp, he⟩ | ⟨hsp, he⟩ := execRet_cases s
    · exact .inl ⟨_, .ret hsp, he⟩
    · exact .inr ⟨_, he, .retAbove hpc (opcode_of_at h) (BitVec.eq_of_toNat_eq hsp)⟩
  | hlt => exact .inl ⟨_, .hlt, execHlt_eq s⟩

/-- A failed fetch has a cause of R146 or R148: the pc past the top, a byte that is no opcode, or a missing operand. -/
theorem cause_of_fetchInstr {r : Raise} (h : fetchInstr s = .error r) : Cause s r.kind r.detail := by
  by_cases hpc : 255 < s.pc
  · cases (fetchInstr_past_top hpc).symm.trans h
    exact .opcodeFetch hpc
  have hpc : s.pc ≤ 255 := by omega
  cases hl : lookup opcodeMap (s.mem.read s.pc) with
  | none =>
    cases (fetchInstr_unknown hpc hl).symm.trans h
    exact .unknownOpcode hpc (not_mem_values_of_lookup hl)
  | some build =>
    have hop : s.mem.read s.pc ∈ opcodeMap.values := by
      by_contra hop
      cases (lookup_of_not_mem_values hop).symm.trans hl
    obtain ⟨-, hf⟩ | ⟨hend, hf⟩ := fetchInstr_known hpc hl
    · cases hf.symm.trans h
    · cases hf.symm.trans h
      exact .operandFetch (256 - s.pc) hpc hop (by omega) (by omega)

/-- A Running engine has a step: the instruction at pc completes, or an error is taken that has a cause. -/
theorem step_next_completes_or_cause (hs : s.status = .running) :
    ∃ t, step s = .next t ∧
      ((∃ i, s.at (encode i) ∧ Completes s i t) ∨ ∃ r, t = raise r s ∧ Cause s r.kind r.detail) := by
  obtain ⟨i, hf, he⟩ | ⟨r, hf, he⟩ := step_running hs
  · have hat : s.at (encode i) := ⟨hs, encode_at_pc_of_fetchInstr hf⟩
    obtain ⟨t, hc, he'⟩ | ⟨r, he', hr⟩ := exec_completes_or_cause hat
    · exact ⟨t, he.trans he', .inl ⟨i, hat, hc⟩⟩
    · exact ⟨_, he.trans he', .inr ⟨r, rfl, hr⟩⟩
  · exact ⟨_, he, .inr ⟨r, rfl, cause_of_fetchInstr hf⟩⟩

/-! ### A cause has an error -/

/-- The instruction at pc is the one its opcode byte dispatches to, with the bytes after it as operands. -/
theorem instr_of_at {build : Byte → Byte → Instr} (h : s.at (encode i))
    (hl : lookup opcodeMap (s.mem.read s.pc) = some build) :
    i = build (s.mem.read (s.pc + 1)) (s.mem.read (s.pc + 2)) := by
  have hfi := fetchInstr_of_at h
  have hpos := encode_length_pos i
  have hlen : s.pc + (encode i).length ≤ 256 := end_le_of_at h
  obtain ⟨-, hf⟩ | ⟨-, hf⟩ := fetchInstr_known (by omega) hl
  · exact Except.ok.inj (hfi.symm.trans hf)
  · cases hfi.symm.trans hf

/-- An instruction with a register operand A completes only where that byte names a register. -/
theorem Completes.operandA_le (hc : Completes s i t) (h : s.at (encode i))
    (hop : s.mem.read s.pc ∈ [0x82#8, 0x47#8, 0xA2#8, 0xA0#8, 0x45#8, 0x46#8, 0x50#8]) :
    (s.mem.read (s.pc + 1)).toNat ≤ 7 := by
  cases hc with
  | ldi r ha | prn r ha | mul r _ ha | add r _ ha | push r ha | pop r ha | call r ha =>
    rw [operandA_of_at h]
    omega
  | ret => rw [opcode_of_at (op := 0x11#8) h] at hop; simp at hop
  | hlt => rw [opcode_of_at (op := 0x01#8) h] at hop; simp at hop

/-- MUL and ADD complete only where operand B names a register. -/
theorem Completes.operandB_le (hc : Completes s i t) (h : s.at (encode i))
    (hop : s.mem.read s.pc ∈ [0xA2#8, 0xA0#8]) : (s.mem.read (s.pc + 2)).toNat ≤ 7 := by
  simp only [List.mem_cons, List.not_mem_nil, or_false] at hop
  obtain hop | hop := hop
  · obtain rfl := instr_of_at (build := .mul) h (by rw [hop]; rfl)
    cases hc with
    | mul r q _ hb => omega
  · obtain rfl := instr_of_at (build := .add) h (by rw [hop]; rfl)
    cases hc with
    | add r q _ hb => omega

/-- PUSH and CALL complete only where SP is above 0. -/
theorem Completes.sp_pos (hc : Completes s i t) (h : s.at (encode i))
    (hop : s.mem.read s.pc ∈ [0x45#8, 0x50#8]) : 0 < s.sp.toNat := by
  simp only [List.mem_cons, List.not_mem_nil, or_false] at hop
  obtain hop | hop := hop
  · exact (hc.mem_pushed ⟨_, .inl (instr_of_at (build := fun a _ => .push a) h (by rw [hop]; rfl))⟩).1
  · exact (hc.mem_pushed ⟨_, .inr (instr_of_at (build := fun a _ => .call a) h (by rw [hop]; rfl))⟩).1

/-- POP completes only where SP, once the register is loaded, is not 255. -/
theorem Completes.sp_loaded_ne (hc : Completes s i t) (h : s.at (encode i)) (hop : s.mem.read s.pc = 0x46#8) :
    (if s.mem.read (s.pc + 1) = 7#8 then s.mem.read s.sp.toNat else s.sp) ≠ 255#8 := by
  obtain rfl := instr_of_at (build := fun a _ => .pop a) h (by rw [hop]; rfl)
  cases hc with
  | pop r ha hsp =>
    intro htop
    have hlt : (loaded s r).sp.toNat < 255 := hsp
    rw [sp_loaded ha, htop] at hlt
    exact absurd hlt (by decide)

/-- Where the instruction at pc completes, none of the causes of R146 and R148 holds. -/
theorem Completes.not_cause (hc : Completes s i t) (h : s.at (encode i)) (k : ErrorKind) (d : Int) :
    ¬ Cause s k d := by
  intro hcause
  have hlen : s.pc + (encode i).length ≤ 256 := end_le_of_at h
  have hcount := encode_length_of_at h
  cases hcause with
  | opcodeFetch hpc => omega
  | unknownOpcode hpc hop =>
    cases (fetchInstr_unknown hpc (lookup_of_not_mem_values hop)).symm.trans (fetchInstr_of_at h)
  | operandFetch k => omega
  | registerA _ hop ha => exact absurd (hc.operandA_le h hop) (by omega)
  | registerB _ hop hb => exact absurd (hc.operandB_le h hop) (by omega)
  | stackBelowZero _ hop hs => exact absurd (hc.sp_pos h hop) (by rw [hs]; decide)
  | popAbove _ hop hr hs => exact hc.sp_loaded_ne h hop (by rw [if_neg hr, hs])
  | popIntoSp _ hop hr hv => exact hc.sp_loaded_ne h hop (by rw [if_pos hr, hv])
  | retAbove _ hop hs =>
    obtain rfl := instr_of_at (build := fun _ _ => .ret) h (by rw [hop]; rfl)
    cases hc with
    | ret hsp => exact absurd hsp (by rw [hs]; decide)
  | returnAddress hp hop =>
    obtain rfl := instr_of_at (build := fun a _ => .call a) h (by rw [hop]; rfl)
    cases hc with
    | call _ _ _ hpc => omega

/-! ### The output -/

/-- A completed instruction keeps what was emitted: PRN appends one value, every other leaves the output. -/
theorem Completes.out_prefix (hc : Completes s i t) : s.out <+: t.out := by
  cases hc with
  | prn => exact List.prefix_append _ _
  | ldi | mul | add | push | pop | call | ret | hlt => exact List.prefix_rfl

/-- A step keeps what was emitted, a raising one too (R153). -/
theorem out_prefix_of_step (h : step s = .next t) : s.out <+: t.out := by
  obtain ⟨-, ⟨i, -, hc⟩ | ⟨r, rfl, -⟩⟩ := step_cases h
  · exact hc.out_prefix
  · exact List.prefix_rfl

end

/-! ### The statements -/

/-- Settles O34: the error a step takes is raised with its cause, and a completed instruction excludes every cause. -/
theorem errorsHaveExactlyTheListedCauses : Obligations.ErrorsHaveExactlyTheListedCauses := by
  intro s hs
  obtain ⟨u, hu, ⟨i, hat, hc⟩ | ⟨r, rfl, hr⟩⟩ := step_next_completes_or_cause hs
  · constructor
    · intro t k p d h ht
      cases hu.symm.trans h
      obtain hst | ⟨-, hst⟩ := hc.status_running_or_halted hs <;> cases hst.symm.trans ht
    · intro k d hcause
      exact absurd hcause (hc.not_cause hat k d)
  · constructor
    · intro t k p d h ht
      cases hu.symm.trans h
      cases ht
      exact ⟨rfl, hr⟩
    · intro _ _ _
      exact ⟨r.kind, r.detail, hu ▸ raises_raise r s, hr⟩

/-- Settles O51, by induction on the rounds: a round that steps keeps what was emitted, and any other ends the run. -/
theorem outputOnlyGrows : Obligations.OutputOnlyGrows := by
  intro n
  induction n with
  | zero => exact fun _ => List.prefix_rfl
  | succ n ih =>
    intro s
    cases h : step s with
    | next t =>
      rw [runSteps_succ h]
      exact (out_prefix_of_step h).trans (ih t)
    | fault | refused => simp only [runSteps, h, List.prefix_rfl]

end Sys2Proof.Machine
end

section
/-! SUPPORT. The statements about the host's operations on the CORE (70_reset_and_hazards.md, sections 1, 2 and 6;
R166, R168 to R170, R177). A load that is not refused places its bytes (`loadBytes_eq_placeBytes`); a run that has
stopped stays where it is (`runSteps_of_stopped`), and so two numbers of rounds that end it end it in one state. -/

namespace Sys2Proof.Machine

/-! ### Placed bytes -/

/-- Placing bytes leaves every cell past the last of them. -/
theorem read_placeBytes_above (bs : List Byte) {a x : Nat} (m : Memory) (hx : a + bs.length ≤ x) :
    (placeBytes bs a m).read x = m.read x := by
  induction bs generalizing a m with
  | nil => rfl
  | cons b bs ih =>
    rw [List.length_cons] at hx
    rw [placeBytes]
    split
    · rw [ih _ (by omega), Memory.read_write_other _ (by omega)]
    · rfl

/-- Where an instruction's encoding is placed at pc, the bytes at pc are that encoding. -/
theorem at_encode_of_placeBytes {s : State} {i : Instr} {rest : List Byte} {m : Memory} (hs : s.status = .running)
    (hmem : s.mem = placeBytes (encode i ++ rest) s.pc m) (hfit : s.pc + (encode i ++ rest).length ≤ 256) :
    s.at (encode i) := by
  refine ⟨hs, by rw [List.length_append] at hfit; omega, List.ext_getElem (by simp) fun k _ hk => ?_⟩
  have hk' : k < (encode i ++ rest).length := List.length_append ▸ Nat.lt_add_right _ hk
  rw [List.getElem_map, List.getElem_range, hmem, read_placeBytes m hfit hk', List.getElem_append_left hk]

/-! ### Loading -/

/-- A value that fits a byte, for an address that exists, is stored there, and the next goes one above. -/
theorem loadBytes_cons {v : Int} {a : Nat} (hv : 0 ≤ v ∧ v ≤ 255) (ha : a ≤ 255) (vs : List Int) (s : State) :
    loadBytes (v :: vs) a s = loadBytes vs (a + 1 : Nat) { s with mem := s.mem.write a (BitVec.ofInt 8 v) } := by
  rw [loadBytes, if_pos hv, memWrite_ok s ha]
  rfl

/-- The first address or value outside 0 to 255 refuses the call (R168). -/
theorem loadBytes_cons_refused {v a : Int} (h : a < 0 ∨ 255 < a ∨ v < 0 ∨ 255 < v) (vs : List Int) (s : State) :
    loadBytes (v :: vs) a s = .error .outOfRangeAddress := by
  by_cases hv : 0 ≤ v ∧ v ≤ 255
  · have ha : a < 0 ∨ 255 < a := by omega
    rw [loadBytes, if_pos hv, memWrite_error s ha]
  · rw [loadBytes, if_neg hv]

/-- Values that fit bytes, for addresses that exist, are placed as bytes, and nothing else changes (R168). -/
theorem loadBytes_eq_placeBytes {vs : List Int} {a : Nat} (s : State) (hfit : a + vs.length ≤ 256)
    (hvs : ∀ v ∈ vs, 0 ≤ v ∧ v ≤ 255) :
    loadBytes vs a s = .ok { s with mem := placeBytes (vs.map (BitVec.ofInt 8)) a s.mem } := by
  induction vs generalizing a s with
  | nil => rfl
  | cons v vs ih =>
    obtain ⟨hv, hvs⟩ := List.forall_mem_cons.1 hvs
    rw [List.length_cons] at hfit
    have ha : a < Config.memSize := by simp only [Config.memSize]; omega
    rw [loadBytes_cons hv (by omega), ih _ (by omega) hvs, List.map_cons, placeBytes, if_pos ha]

/-- An address or a value outside 0 to 255 anywhere in the list refuses the call (R168). -/
theorem loadBytes_refused {vs : List Int} {a : Int} (s : State) {k : Nat} (hk : k < vs.length)
    (h : a + k < 0 ∨ 255 < a + k ∨ vs[k] < 0 ∨ 255 < vs[k]) :
    loadBytes vs a s = .error .outOfRangeAddress := by
  induction vs generalizing a s k with
  | nil => cases hk
  | cons v vs ih =>
    by_cases hhead : a < 0 ∨ 255 < a ∨ v < 0 ∨ 255 < v
    · exact loadBytes_cons_refused hhead vs s
    · cases k with
      | zero => exact absurd (by simpa using h) hhead
      | succ k =>
        obtain ⟨n, rfl⟩ := Int.eq_ofNat_of_zero_le (by omega : 0 ≤ a)
        rw [loadBytes_cons (by omega) (by omega)]
        refine ih _ (Nat.lt_of_succ_lt_succ hk) ?_
        rw [List.getElem_cons_succ] at h
        omega

/-- A load that is answered fits in memory. -/
theorem length_le_of_loadBytes {vs : List Int} {a : Nat} {s t : State} (ha : a ≤ 256) (h : loadBytes vs a s = .ok t) :
    a + vs.length ≤ 256 := by
  by_contra hlong
  have hk : 256 - a < vs.length := by omega
  cases h.symm.trans (loadBytes_refused s hk (by omega))

/-- Bytes given as their unsigned values are placed as they are, and they fit. -/
theorem loadBytes_of_bytes {bs : List Byte} {a : Nat} {s t : State} (ha : a ≤ 256)
    (h : loadBytes (bs.map fun b => (b.toNat : Int)) a s = .ok t) :
    a + bs.length ≤ 256 ∧ t = { s with mem := placeBytes bs a s.mem } := by
  have hfit := length_le_of_loadBytes ha h
  have hvs : ∀ v ∈ bs.map fun b => (b.toNat : Int), 0 ≤ v ∧ v ≤ 255 := by
    intro v hv
    obtain ⟨b, -, rfl⟩ := List.mem_map.1 hv
    have := b.isLt
    omega
  have hbytes : (bs.map fun b => (b.toNat : Int)).map (BitVec.ofInt 8) = bs := by
    simp [Function.comp_def]
  rw [loadBytes_eq_placeBytes s hfit hvs, hbytes] at h
  exact ⟨by rwa [List.length_map] at hfit, (Except.ok.inj h).symm⟩

/-! ### The end of a run -/

section
variable {s : State}

/-- Only a Running state has no result (R83). -/
theorem State.result_eq_none_iff : s.result = none ↔ s.status = .running := by
  cases h : s.status <;> simp [State.result, h]

/-- An engine that is not Running executes nothing (R85). -/
theorem runSteps_of_stopped (hs : s.status ≠ .running) (n : Nat) : runSteps n s = s := by
  cases n with
  | zero => rfl
  | succ n =>
    cases h : step s with
    | next t => exact absurd (step_cases h).1 hs
    | fault | refused => simp only [runSteps, h]

/-- Rounds of a run add up. -/
theorem runSteps_add (n m : Nat) (s : State) : runSteps (n + m) s = runSteps m (runSteps n s) := by
  induction n generalizing s with
  | zero => rw [Nat.zero_add, runSteps]
  | succ n ih =>
    by_cases hs : s.status = .running
    · obtain ⟨t, ht⟩ := (onlyARunningEngineSteps s).1 hs
      rw [Nat.succ_add, runSteps_succ ht, runSteps_succ ht, ih]
    · simp only [runSteps_of_stopped hs]

/-- Once a run has a result, further rounds leave its state. -/
theorem runSteps_add_of_result {n : Nat} {r : RunResult} (h : (runSteps n s).result = some r) (m : Nat) :
    runSteps (n + m) s = runSteps n s := by
  rw [runSteps_add]
  refine runSteps_of_stopped (fun hs => ?_) m
  rw [State.result_eq_none_iff.2 hs] at h
  cases h

/-- A run returns at most one result (R177): two numbers of rounds that end it end it in one state. -/
theorem RunReturns.unique {r r' : RunResult} (h : RunReturns s r) (h' : RunReturns s r') : r = r' := by
  obtain ⟨n, hn⟩ := h
  obtain ⟨m, hm⟩ := h'
  have hstate : runSteps n s = runSteps m s := by
    rw [← runSteps_add_of_result hn m, Nat.add_comm, runSteps_add_of_result hm n]
  exact Option.some.inj (hn.symm.trans (hstate ▸ hm))

/-- A run is infinite exactly when it returns nothing (R84). -/
theorem runsForever_iff : RunsForever s ↔ ∀ r : RunResult, ¬ RunReturns s r := by
  simp only [RunsForever, RunReturns, ← State.result_eq_none_iff, Option.eq_none_iff_forall_ne_some, not_exists]
  exact forall_comm

end

/-! ### The statements -/

/-- Settles O46: values that fit are placed as bytes, and reading a placed byte gives the value back. -/
theorem loadBytesFillsConsecutiveCells : Obligations.LoadBytesFillsConsecutiveCells := by
  intro vs start s
  refine ⟨fun h0 hfit hvs => ?_, fun ⟨k, hk, h⟩ => loadBytes_refused s hk h⟩
  obtain ⟨a, rfl⟩ := Int.eq_ofNat_of_zero_le h0
  have hfit : a + vs.length ≤ 256 := by omega
  refine ⟨_, loadBytes_eq_placeBytes s hfit hvs, fun k hk => ?_, fun x hx => ?_, rfl, rfl, rfl, rfl⟩
  · obtain ⟨hlo, hhi⟩ := hvs _ (List.getElem_mem hk)
    rw [Int.toNat_natCast, read_placeBytes s.mem (by rwa [List.length_map]) (by rwa [List.length_map]),
      List.getElem_map, toNat_ofInt_eq_emod]
    omega
  · obtain hx | hx := hx
    · exact read_placeBytes_below _ s.mem (by omega)
    · exact read_placeBytes_above _ s.mem (by rw [List.length_map]; omega)

/-- Settles O47: the constructed engine is Running at pc 0, where the loaded image places the encoding. -/
theorem loadedImageRunsFromAddressZero : Obligations.LoadedImageRunsFromAddressZero := by
  intro i rest s h
  obtain ⟨hfit, rfl⟩ := loadBytes_of_bytes (Nat.zero_le 256) h
  exact step_of_at (at_encode_of_placeBytes rfl rfl hfit)

/-- Settles O49: results are unique (`RunReturns.unique`), and a state has none exactly while it is Running. -/
theorem runEndsInOneWayOrNever : Obligations.RunEndsInOneWayOrNever :=
  fun _ => ⟨fun _ _ => RunReturns.unique, runsForever_iff⟩

/-- Settles O50: a terminal status is the run's result at once, and no round leaves it. -/
theorem haltedEngineStaysHalted : Obligations.HaltedEngineStaysHalted := by
  refine fun s => ⟨fun hs => ⟨runReturns_of_result ?_, runSteps_of_stopped ?_⟩,
    fun k p d hs => ⟨runReturns_of_result ?_, runSteps_of_stopped ?_⟩⟩
  · rw [State.result, hs]
  · rw [hs]; exact Status.noConfusion
  · rw [State.result, hs]
  · rw [hs]; exact Status.noConfusion

end Sys2Proof.Machine
end
